-- ==== Sys2Proof/Word.lean ====
section
/-! DEFINITION. The words of the block and its byte sequences (spec 00_scope.md R6, R8, R9). -/

namespace Sys2Proof

/-- A byte is 8 bits (R9). -/
abbrev Byte := BitVec 8

/-- `type` and `length` are unsigned 64-bit numbers: `TYPEW` = `LENW` = 64 (R6). -/
abbrev Word := BitVec 64

/-- A byte sequence `B` of R9, seen as a reader: `len` bytes, element `i` is `byte i`.
Only `byte i` with `i < len` is an element of the sequence.
This is the operand of `IntDec` and `DecodeOne`; no field of the machine's state has this type. -/
structure ByteSeq where
  /-- `len(B)` -/
  len : Nat
  /-- `B[i]`, for `i < len(B)` -/
  byte : Nat → Byte

namespace ByteSeq

/-- A list of bytes as a byte sequence. -/
def ofList (l : List Byte) : ByteSeq := ⟨l.length, fun i => l.getD i 0⟩

/-- `B[off .. len(B))` (R9). -/
def dropTo (B : ByteSeq) (off : Nat) : ByteSeq := ⟨B.len - off, fun i => B.byte (off + i)⟩

/-- `B[a .. b)` as a list (R9: a half-open range, empty when `a = b`). -/
def slice (B : ByteSeq) (a b : Nat) : List Byte := (List.range (b - a)).map fun i => B.byte (a + i)

/-- `B[off .. off + len(l)) = l`, all of it inside `B`. -/
def HasAt (B : ByteSeq) (off : Nat) (l : List Byte) : Prop :=
  off + l.length ≤ B.len ∧ B.slice off (off + l.length) = l

end ByteSeq
end Sys2Proof
end

