-- ==== Sys2Proof/Config.lean ====
section
/-! DEFINITION. What an implementation fixes (spec 00_scope.md R6, R7) and the free values.
The Integer Codec's contract stands here (40_integer_codec.md Part 1); its default instance `VARU64-REF`
is in Decode.lean. -/

namespace Sys2Proof

/-- `OFFW`, the width in bits of every offset: an integer from 1 to 64, default 64 (R7, D4).
DESIGN CHOICE (log 2): the machine takes the default; `decodeOne`, `scanFrom` and the encoder are written over
natural numbers and hold for every width. -/
abbrev Config.offw : Nat := 64

/-- An offset: an index into the bound buffer, a number of width `OFFW` (R9). -/
abbrev Offset := BitVec Config.offw

/-- `IMPLIED_LIMIT` (R6): `type < 128` has an implied length. -/
abbrev Config.impliedLimit : Nat := 128

/-- `CLASS_SHIFT` (R6): the length class is `type >> 3`. -/
abbrev Config.classShift : Nat := 3

/-- What an address that the memory does not list reads as.
DESIGN CHOICE (log 4): the spec gives bytes at offsets `>= BUFLEN` no value (R51, U4) and the block never reads one. -/
def Config.unlistedByte : Byte := 0

/-- A FREE VALUE (log 7): what the `k`-th read of a result register that holds no value returns.
R205: such a read "returns an unspecified value".  It has no body: no proof can know a value of it. -/
opaque Config.freeRead : Nat → Word

/-- The parameter `INTCODEC` (R7, R119): a pair `IntEnc`, `IntDec`.
`dec B off = some (n, c)` is `Ok(n, c)`; `none` is `Fail`, which carries no reason (R117). -/
structure IntCodec where
  /-- `IntEnc(n)` (R110) -/
  enc : Word → List Byte
  /-- `IntDec(B, off)` (R111) -/
  dec : ByteSeq → Nat → Option (Word × Nat)

/-- The Integer Codec contract, rules R112 to R115, law by law. -/
structure IntCodec.Conforms (C : IntCodec) : Prop where
  /-- R112: `IntDec(IntEnc(n), 0) = Ok(n, len(IntEnc(n)))`. -/
  roundTrip : ∀ n, C.dec (.ofList (C.enc n)) 0 = some (n, (C.enc n).length)
  /-- R113 law 1: for `off <= len(B)`, `IntDec(B, off)` equals `IntDec(B[off .. len(B)), 0)`. -/
  positionIndependent : ∀ B off, off ≤ B.len → C.dec B off = C.dec (B.dropTo off) 0
  /-- R113 law 2: what lies after the consumed bytes does not matter. -/
  prefixLocal : ∀ S S' n c, C.dec S 0 = some (n, c) → c ≤ S'.len → (∀ i < c, S'.byte i = S.byte i) →
    C.dec S' 0 = some (n, c)
  /-- R114: `B[off .. off + c) = IntEnc(n)`. -/
  canonicalOnly : ∀ B off n c, C.dec B off = some (n, c) → B.slice off (off + c) = C.enc n
  /-- R115: `c >= 1` and `off + c <= len(B)`. -/
  bounds : ∀ B off n c, C.dec B off = some (n, c) → 1 ≤ c ∧ off + c ≤ B.len
  /-- R115: if `off >= len(B)` the result is `Fail`. -/
  failsPastEnd : ∀ B off, B.len ≤ off → C.dec B off = none
  /-- R115: `IntDec` reads no byte outside `[off, len(B))`. -/
  readsInside : ∀ B B' off, B.len = B'.len → (∀ i, off ≤ i → i < B.len → B.byte i = B'.byte i) →
    C.dec B off = C.dec B' off

end Sys2Proof
end

