-- ==== Sys2Proof/Syntax.lean ====
section
/-! DEFINITION. The instructions: one constructor per mnemonic of spec/opcode_table.json (R86, R92, R220). -/

namespace Sys2Proof

/-- Which command decodes a record, and where (R130: "the block always passes BUF"; the offset is `CURSOR` for
`NEXT`, R174, and the operand for `DECODE_AT`, R157).  That a record carries its site is DEDUCED (log 11). -/
inductive Site where
  /-- `NEXT`: the record at `CURSOR`, decoded as part of the scan. -/
  | scan
  /-- `DECODE_AT off`: the record at `off`, outside the scan (R158). -/
  | peek (off : Offset)
deriving DecidableEq, Repr

/-- The instructions of the block, on its two levels (00_scope.md section 7 item 3): the records the block parses,
which "play the part an instruction stream plays for a processor" (30_encoding.md), and the host commands; and the
one reference function of the table.  A record below type 128 keeps its slot `type & 0x7` (R84); its class is the
constructor.  A record of format X keeps its whole type; its length is an operand in the stream (R150). -/
inductive Instr where
  | recI0 (site : Site) (slot : BitVec 3)
  | recI1 (site : Site) (slot : BitVec 3)
  | recI2 (site : Site) (slot : BitVec 3)
  | recI3 (site : Site) (slot : BitVec 3)
  | recI4 (site : Site) (slot : BitVec 3)
  | recI5 (site : Site) (slot : BitVec 3)
  | recI6 (site : Site) (slot : BitVec 3)
  | recI7 (site : Site) (slot : BitVec 3)
  | recI8 (site : Site) (slot : BitVec 3)
  | recI9 (site : Site) (slot : BitVec 3)
  | recI10 (site : Site) (slot : BitVec 3)
  | recI11 (site : Site) (slot : BitVec 3)
  | recI12 (site : Site) (slot : BitVec 3)
  | recI13 (site : Site) (slot : BitVec 3)
  | recI14 (site : Site) (slot : BitVec 3)
  | recI15 (site : Site) (slot : BitVec 3)
  /-- `REC.XS`: type 128 to 247 (R150). -/
  | recXS (site : Site) (type : Word)
  /-- `REC.XM`: type 248 and above (R151). -/
  | recXM (site : Site) (type : Word)
  /-- `BIND b` (R201), carrying the bytes of the buffer (R61: "at model level `BIND` may carry the content itself"). -/
  | bind (b : List Byte)
  /-- `SEEK off` (R173). -/
  | seek (off : Offset)
  /-- `NEXT` (R174). -/
  | next
  /-- `DECODE_AT off` (R157). -/
  | decodeAt (off : Offset)
  /-- `ENCODE_RECORD`: the reference function `EncodeRecord(type, value)` (R220); it has no code. -/
  | encodeRecord (type : Word) (value : List Byte)
deriving DecidableEq, Repr

/-- The host's command port: a command code (R92) and the two operand lanes a command may use, an offset and a byte
sequence.  DESIGN CHOICE (log 9): a command ignores a lane it has no operand in. -/
structure Command where
  code : BitVec 8
  off  : Offset
  data : List Byte
deriving DecidableEq, Repr

/-- What the decoder is handed: a host command, or the `type` number of a record's type field (R84, R85). -/
inductive Fetched where
  | command (c : Command)
  | record (site : Site) (type : Word)
deriving DecidableEq, Repr

end Sys2Proof
end

