-- ==== Sys2Proof/WellFormed.lean ====
section
/-! DEFINITION. Which instructions the spec can express: the operand ranges of the opcode table and of R201, R220. -/

namespace Sys2Proof

/-- The operand checks: a buffer of fewer than `2^OFFW` bytes (R201), the type ranges of `REC.XS` and `REC.XM`
(R86), a value of fewer than `2^64` bytes (R220).  Everything else is in range by its type. -/
def Instr.wellFormed : Instr → Bool
  | .recI0 _ _ | .recI1 _ _ | .recI2 _ _ | .recI3 _ _ | .recI4 _ _ | .recI5 _ _ | .recI6 _ _ | .recI7 _ _
  | .recI8 _ _ | .recI9 _ _ | .recI10 _ _ | .recI11 _ _ | .recI12 _ _ | .recI13 _ _ | .recI14 _ _
  | .recI15 _ _ => true
  | .recXS _ type => 128 ≤ type.toNat && type.toNat ≤ 247
  | .recXM _ type => 248 ≤ type.toNat
  | .bind b => b.length < 2 ^ Config.offw
  | .seek _ | .next | .decodeAt _ => true
  | .encodeRecord _ value => value.length < 2 ^ 64

/-- The instruction is one the spec can express. -/
abbrev Instr.WellFormed (i : Instr) : Prop := i.wellFormed = true

end Sys2Proof
end

