-- ==== Sys2Proof/Decode.lean ====
section
/-! DEFINITION. The decoders, total on any input and rejecting by name, and after them the encoder.
First the Integer Codec's default instance `VARU64-REF` (40_integer_codec.md Part 2), then the type map of a record
(30_encoding.md R84, R86), the command codes (R92), the record decoder over bytes, and the encodings. -/

namespace Sys2Proof

/-! ## `VARU64-REF` (R120, R121): PRESUMED (log 1), the spec marks it "from general knowledge, not in source" -/

/-- The least `k` in 1..8 with `n < 2^(8k)` (R120), for `n < 2^64`. -/
def varPayloadSize (n : Nat) : Nat :=
  if n < 2 ^ 8 then 1 else if n < 2 ^ 16 then 2 else if n < 2 ^ 24 then 3 else if n < 2 ^ 32 then 4
  else if n < 2 ^ 40 then 5 else if n < 2 ^ 48 then 6 else if n < 2 ^ 56 then 7 else 8

/-- `BE_k(n)`: the `k` low bytes of `n`, most significant first (R120). -/
def bigEndian : Nat → Nat → List Byte
  | 0, _ => []
  | k + 1, n => BitVec.ofNat 8 (n / 2 ^ (8 * k)) :: bigEndian k n

/-- The number whose big-endian bytes are the list (R121). -/
def bigEndianValue : List Byte → Nat
  | [] => 0
  | b :: bs => b.toNat * 2 ^ (8 * bs.length) + bigEndianValue bs

/-- `IntEnc` of `VARU64-REF` (R120). -/
def varEnc (n : Word) : List Byte :=
  if n.toNat < 248 then [BitVec.ofNat 8 n.toNat]
  else BitVec.ofNat 8 (247 + varPayloadSize n.toNat) :: bigEndian (varPayloadSize n.toNat) n.toNat

/-- `IntDec` of `VARU64-REF` on a first byte of 248 to 255 that announces `k` payload bytes (R121): cut off by the end
of the buffer, or not the shortest form, is `Fail`. -/
def varDecPayload (B : ByteSeq) (off k : Nat) : Option (Word × Nat) :=
  if off + 1 + k > B.len then none
  else
    let n := bigEndianValue (B.slice (off + 1) (off + 1 + k))
    if k = 1 ∧ n < 248 then none
    else if k > 1 ∧ n < 2 ^ (8 * (k - 1)) then none
    else some (BitVec.ofNat 64 n, 1 + k)

/-- `IntDec` of `VARU64-REF` (R121). -/
def varDec (B : ByteSeq) (off : Nat) : Option (Word × Nat) :=
  if off ≥ B.len then none
  else if (B.byte off).toNat < 248 then some (BitVec.ofNat 64 (B.byte off).toNat, 1)
  else varDecPayload B off ((B.byte off).toNat - 247)

/-- The size of a `VARU64-REF` scalar, told by its first byte alone: "the first byte fixes the total length" (R122); 1 to
9 bytes (R124). -/
def varSize (first : Byte) : Nat := if first.toNat < 248 then 1 else 1 + (first.toNat - 247)

/-- The Integer Codec attached to the machine: the default instance (R7).  It meets the contract `IntCodec.Conforms` (R122):
`intCodec_conforms` in Laws/Codec.lean. -/
def intCodec : IntCodec := ⟨varEnc, varDec⟩

/-! ## The type map -/

/-- The record class of format I by its class number, bits 6:3 of the type (R84, R86). -/
def decodeClass (site : Site) (cls : BitVec 4) (slot : BitVec 3) : Instr :=
  match cls.toNat with
  | 0 => .recI0 site slot
  | 1 => .recI1 site slot
  | 2 => .recI2 site slot
  | 3 => .recI3 site slot
  | 4 => .recI4 site slot
  | 5 => .recI5 site slot
  | 6 => .recI6 site slot
  | 7 => .recI7 site slot
  | 8 => .recI8 site slot
  | 9 => .recI9 site slot
  | 10 => .recI10 site slot
  | 11 => .recI11 site slot
  | 12 => .recI12 site slot
  | 13 => .recI13 site slot
  | 14 => .recI14 site slot
  | _ => .recI15 site slot

/-- The type map (R86): below 128 by class and slot (R84), then `REC.XS` up to 247, then `REC.XM`.
No type value is reserved or illegal (R89). -/
def decodeType (site : Site) (type : Word) : Instr :=
  if type.toNat < Config.impliedLimit then decodeClass site (type.extractLsb' 3 4) (type.extractLsb' 0 3)
  else if type.toNat < 248 then .recXS site type
  else .recXM site type

/-! ## The command codes and the decoder -/

/-- Why nothing decodes. -/
inductive DecodeReject where
  /-- A command code other than `0x01` to `0x04` (R92, R206). -/
  | reservedCommandCode (code : BitVec 8)
  /-- The bytes at a record's start are no valid scalar (R89, R241). -/
  | malformedTypeField
deriving DecidableEq, Repr

/-- The command map (R92).  A lane a command has no operand in is ignored (log 9). -/
def decodeCommand (c : Command) : Except DecodeReject Instr :=
  if c.code = 0x01 then .ok (.bind c.data)
  else if c.code = 0x02 then .ok (.seek c.off)
  else if c.code = 0x03 then .ok .next
  else if c.code = 0x04 then .ok (.decodeAt c.off)
  else .error (.reservedCommandCode c.code)

/-- The decoder: a host command by its code, a record by its type. -/
def decode : Fetched → Except DecodeReject Instr
  | .command c => decodeCommand c
  | .record site type => .ok (decodeType site type)

/-- The record decoder over bytes: the record of `B` at `off`, its type read by the codec (R85 item 1). -/
def decodeRecordAt (C : IntCodec) (site : Site) (B : ByteSeq) (off : Nat) : Except DecodeReject Instr :=
  match C.dec B off with
  | none => .error .malformedTypeField
  | some (type, _) => decode (.record site type)

/-! ## The encoder -/

/-- A format-I type of class `cls` and slot `slot`: bits 63:7 zero, 6:3 class, 2:0 slot (R84). -/
def impliedType (cls : BitVec 4) (slot : BitVec 3) : Word := (0 : BitVec 57) ++ cls ++ slot

/-- The site and the `type` number of a record; `none` for what is no record. -/
def Instr.wireType : Instr → Option (Site × Word)
  | .recI0 site slot => some (site, impliedType 0 slot)
  | .recI1 site slot => some (site, impliedType 1 slot)
  | .recI2 site slot => some (site, impliedType 2 slot)
  | .recI3 site slot => some (site, impliedType 3 slot)
  | .recI4 site slot => some (site, impliedType 4 slot)
  | .recI5 site slot => some (site, impliedType 5 slot)
  | .recI6 site slot => some (site, impliedType 6 slot)
  | .recI7 site slot => some (site, impliedType 7 slot)
  | .recI8 site slot => some (site, impliedType 8 slot)
  | .recI9 site slot => some (site, impliedType 9 slot)
  | .recI10 site slot => some (site, impliedType 10 slot)
  | .recI11 site slot => some (site, impliedType 11 slot)
  | .recI12 site slot => some (site, impliedType 12 slot)
  | .recI13 site slot => some (site, impliedType 13 slot)
  | .recI14 site slot => some (site, impliedType 14 slot)
  | .recI15 site slot => some (site, impliedType 15 slot)
  | .recXS site type => some (site, type)
  | .recXM site type => some (site, type)
  | .bind _ | .seek _ | .next | .decodeAt _ | .encodeRecord _ _ => none

/-- The code and operand of a host command (R92), its unused lanes empty; `none` for what is no command. -/
def Instr.commandWord : Instr → Option Command
  | .bind b => some ⟨0x01, 0, b⟩
  | .seek off => some ⟨0x02, off, []⟩
  | .next => some ⟨0x03, 0, []⟩
  | .decodeAt off => some ⟨0x04, off, []⟩
  | .recI0 _ _ | .recI1 _ _ | .recI2 _ _ | .recI3 _ _ | .recI4 _ _ | .recI5 _ _ | .recI6 _ _ | .recI7 _ _
  | .recI8 _ _ | .recI9 _ _ | .recI10 _ _ | .recI11 _ _ | .recI12 _ _ | .recI13 _ _ | .recI14 _ _ | .recI15 _ _
  | .recXS _ _ | .recXM _ _ | .encodeRecord _ _ => none

/-- The encoder: the command of a host command, the type of a record; `ENCODE_RECORD` has no code (R87, R220). -/
def encode (i : Instr) : Option Fetched :=
  match i.commandWord, i.wireType with
  | some c, _ => some (.command c)
  | none, some (site, type) => some (.record site type)
  | none, none => none

/-- The bytes of a record's type field: `IntEnc(type)` (R80 to R82); empty for what is no record. -/
def encodeTypeField (C : IntCodec) (i : Instr) : List Byte :=
  match i.wireType with
  | some (_, type) => C.enc type
  | none => []

/-! ## The opcode table's rows and the host's reading of its words -/

/-- An instruction's mnemonic in spec/opcode_table.json. -/
def Instr.mnemonic : Instr → String
  | .recI0 _ _ => "REC.I0"
  | .recI1 _ _ => "REC.I1"
  | .recI2 _ _ => "REC.I2"
  | .recI3 _ _ => "REC.I3"
  | .recI4 _ _ => "REC.I4"
  | .recI5 _ _ => "REC.I5"
  | .recI6 _ _ => "REC.I6"
  | .recI7 _ _ => "REC.I7"
  | .recI8 _ _ => "REC.I8"
  | .recI9 _ _ => "REC.I9"
  | .recI10 _ _ => "REC.I10"
  | .recI11 _ _ => "REC.I11"
  | .recI12 _ _ => "REC.I12"
  | .recI13 _ _ => "REC.I13"
  | .recI14 _ _ => "REC.I14"
  | .recI15 _ _ => "REC.I15"
  | .recXS _ _ => "REC.XS"
  | .recXM _ _ => "REC.XM"
  | .bind _ => "BIND"
  | .seek _ => "SEEK"
  | .next => "NEXT"
  | .decodeAt _ => "DECODE_AT"
  | .encodeRecord _ _ => "ENCODE_RECORD"

/-- A row of space `wire-type`: it matches a type when `type &&& mask = pattern` (R87). -/
structure WireRow where
  mnemonic : String
  mask     : Word
  pattern  : Word
  typeMin  : Nat
  typeMax  : Nat
deriving DecidableEq, Repr

/-- The 19 rows of space `wire-type`, in the order listed: the first that matches wins (R87). -/
def wireRows : List WireRow := [
  ⟨"REC.I0", 0xFFFFFFFFFFFFFFF8, 0x0000000000000000, 0, 7⟩,
  ⟨"REC.I1", 0xFFFFFFFFFFFFFFF8, 0x0000000000000008, 8, 15⟩,
  ⟨"REC.I2", 0xFFFFFFFFFFFFFFF8, 0x0000000000000010, 16, 23⟩,
  ⟨"REC.I3", 0xFFFFFFFFFFFFFFF8, 0x0000000000000018, 24, 31⟩,
  ⟨"REC.I4", 0xFFFFFFFFFFFFFFF8, 0x0000000000000020, 32, 39⟩,
  ⟨"REC.I5", 0xFFFFFFFFFFFFFFF8, 0x0000000000000028, 40, 47⟩,
  ⟨"REC.I6", 0xFFFFFFFFFFFFFFF8, 0x0000000000000030, 48, 55⟩,
  ⟨"REC.I7", 0xFFFFFFFFFFFFFFF8, 0x0000000000000038, 56, 63⟩,
  ⟨"REC.I8", 0xFFFFFFFFFFFFFFF8, 0x0000000000000040, 64, 71⟩,
  ⟨"REC.I9", 0xFFFFFFFFFFFFFFF8, 0x0000000000000048, 72, 79⟩,
  ⟨"REC.I10", 0xFFFFFFFFFFFFFFF8, 0x0000000000000050, 80, 87⟩,
  ⟨"REC.I11", 0xFFFFFFFFFFFFFFF8, 0x0000000000000058, 88, 95⟩,
  ⟨"REC.I12", 0xFFFFFFFFFFFFFFF8, 0x0000000000000060, 96, 103⟩,
  ⟨"REC.I13", 0xFFFFFFFFFFFFFFF8, 0x0000000000000068, 104, 111⟩,
  ⟨"REC.I14", 0xFFFFFFFFFFFFFFF8, 0x0000000000000070, 112, 119⟩,
  ⟨"REC.I15", 0xFFFFFFFFFFFFFFF8, 0x0000000000000078, 120, 127⟩,
  ⟨"REC.XM", 0xFFFFFFFFFFFFFFF8, 0x00000000000000F8, 248, 255⟩,
  ⟨"REC.XS", 0xFFFFFFFFFFFFFF80, 0x0000000000000080, 128, 247⟩,
  ⟨"REC.XM", 0x0000000000000000, 0x0000000000000000, 256, 18446744073709551615⟩]

/-- The row of the table that a type selects (R87). -/
def selectRow (type : Word) : Option WireRow := wireRows.find? fun r => type &&& r.mask == r.pattern

/-- The instruction the decoder reads from a word of the opcode table (log 17): a row of 8 bits is a command code, its
operand lanes zero; a wider row is a wire type, laid out as its type field's bytes. -/
def decodeTableWord (nbits w : Nat) : Option Instr :=
  if nbits ≤ 8 then
    if w < 2 ^ 8 then (decode (.command ⟨BitVec.ofNat 8 w, 0, []⟩)).toOption else none
  else if w < 2 ^ 64 then
    (decodeRecordAt intCodec .scan (.ofList (intCodec.enc (BitVec.ofNat 64 w))) 0).toOption
  else none

end Sys2Proof
end

