-- ==== Sys2Proof/Machine/State.lean ====
section
/-! DEFINITION. The state of one instance of the block (10_state.md), as plain data, and its reset.
`DecodeError`, `Header` and the responses stand here because the state holds them. -/

namespace Sys2Proof.Machine

/-- `STATUS.KIND` (R27): what the last command produced. -/
inductive Kind where
  | none
  | record
  | atEnd
  | error
deriving DecidableEq, Repr

/-- The field tag of `MalformedInteger` (R240). -/
inductive Field where
  | type
  | length
deriving DecidableEq, Repr

/-- The three errors a decode can give (R130, R240). -/
inductive DecodeError where
  | malformedInteger (field : Field)
  | truncatedValue
deriving DecidableEq, Repr

/-- The result `h` of `DecodeOne` (R130): offsets are natural numbers, for every `OFFW`. -/
structure Header where
  type   : Word
  length : Word
  vstart : Nat
  next   : Nat
deriving DecidableEq, Repr

/-- The four result registers (R32), written together, all four or none. -/
structure Result where
  /-- `R_TYPE`, 64 bits. -/
  rType   : Word
  /-- `R_LENGTH`, 64 bits. -/
  rLength : Word
  /-- `R_VSTART`, `OFFW` bits. -/
  rVstart : Offset
  /-- `R_NEXT`, `OFFW` bits. -/
  rNext   : Offset
deriving DecidableEq, Repr

/-- The response a command hands back (R93). -/
inductive Response where
  | ok
  | record (r : Result)
  | atEnd
  | error (e : DecodeError)
  | halted
  | refused
deriving DecidableEq, Repr

/-- The error of the reference encoder (R222). -/
inductive EncodeError where
  | lengthMismatch
deriving DecidableEq, Repr

/-- What was last handed to the host: a response (R93), the value of a register read (R205), or what the reference
encoder answers (R220). -/
inductive Reply where
  | response (r : Response)
  | value (v : Word)
  | encoded (bytes : List Byte)
  | encodeError (e : EncodeError)
deriving DecidableEq, Repr

/-- What the host may do next: assert reset (R280), read a register by number (R205), issue a command (R200). -/
inductive HostEvent where
  | reset
  | read (reg : Nat)
  | command (c : Command)
deriving DecidableEq, Repr

/-- The state of one instance. The first seven fields are all the spec gives it (R20, R36); the last three are the
model's own. -/
structure State where
  /-- `CURSOR`, the program counter (R22). -/
  cursor : Offset
  /-- `BUFLEN` (R25). -/
  buflen : Offset
  /-- `STATUS.KIND` (R27). -/
  kind : Kind
  /-- `STATUS.ERR` (R28): `none` is code 0. -/
  err : Option DecodeError
  /-- `STATUS.HALT` (R29). -/
  halt : Bool
  /-- `R_TYPE`, `R_LENGTH`, `R_VSTART`, `R_NEXT` (R32); `none` when they hold no value (R33, log 7). -/
  result : Option Result
  /-- The bytes of the bound buffer `BUF` (R36), in canonical form (`Memory.wf`). -/
  mem : List Host.Cell
  /-- The model's own: what the host does next, in order (log 8). -/
  inbox : List HostEvent
  /-- The model's own: what the host was last handed (log 10). -/
  reply : Option Reply
  /-- The model's own: how many free values have been handed out (log 7). -/
  freeCount : Nat
deriving DecidableEq, Repr

/-- The block has no fault: "The block itself never faults, is never stuck and never hangs" (R252).
No constructor, so no one raises one; safe. -/
inductive Fault where
deriving DecidableEq, Repr

/-- Where the model stops; the block's own answer `REFUSED` (R206) is no such stop. -/
inductive Refusal where
  /-- Raised by exec's arm of an instruction that has no meaning yet; safe. No arm raises it. -/
  | notModelled (mnemonic : String)
  /-- Raised by `BIND` with `2^OFFW` bytes or more, which "cannot be expressed and is outside the model" (R206);
  safe (log 13). -/
  | bindLengthNotExpressible
  /-- Raised by `ENCODE_RECORD` with a value of `2^64` bytes or more, outside the operands of R220; safe (log 13). -/
  | valueLengthNotExpressible
deriving DecidableEq, Repr

/-- The machine right after reset (R39, R280): `CURSOR = 0`, `BUFLEN = 0`, `STATUS = 0x00`, result registers without
value, no byte listed.  The model's own fields are empty (DESIGN CHOICE, logs 7, 8, 10). -/
def State.reset : State where
  cursor := 0
  buflen := 0
  kind := .none
  err := .none
  halt := false
  result := .none
  mem := []
  inbox := []
  reply := .none
  freeCount := 0

end Sys2Proof.Machine
end

