-- ==== Sys2Proof/Machine/HeaderDecode.lean ====
section
/-! DEFINITION. The header decoder as a function (41_header_decode.md R130, R131), for every Integer Codec and every
offset width: all arithmetic is over natural numbers (R152). -/

namespace Sys2Proof.Machine

/-- `ImpliedLength(type) = 2^(type >> 3)`, not defined for `type >= 128` (R131, D24). -/
def impliedLength (type : Word) : Option Nat :=
  if type.toNat < Config.impliedLimit then some (2 ^ (type.toNat >>> Config.classShift)) else none

/-- Steps 4 and 5 of `DecodeOne` (R130): the truncation test as a subtraction, which cannot wrap (R152), then the
result. -/
def finishHeader (L : Nat) (type length : Word) (headerEnd : Nat) : Except DecodeError Header :=
  if length.toNat > L - headerEnd then .error .truncatedValue
  else .ok ⟨type, length, headerEnd, headerEnd + length.toNat⟩

/-- `DecodeOne(B, off)` (R130). -/
def decodeOne (C : IntCodec) (B : ByteSeq) (off : Nat) : Except DecodeError Header :=
  match C.dec B off with
  | none => .error (.malformedInteger .type)
  | some (type, n1) =>
    match impliedLength type with
    | some l => finishHeader B.len type (BitVec.ofNat 64 l) (off + n1)
    | none =>
      match C.dec B (off + n1) with
      | none => .error (.malformedInteger .length)
      | some (length, n2) => finishHeader B.len type length (off + n1 + n2)

/-- The result registers that hold a header: `R_VSTART = header_end`, `R_NEXT = next_offset` (R32).
The offsets fit in `OFFW` bits: `next <= len(B) < 2^OFFW` (R153). -/
def Header.toResult (h : Header) : Result where
  rType := h.type
  rLength := h.length
  rVstart := BitVec.ofNat Config.offw h.vstart
  rNext := BitVec.ofNat Config.offw h.next

end Sys2Proof.Machine
end

