-- ==== Sys2Proof/Machine/Ops.lean ====
section
/-! DEFINITION. The shared operations over the buffer and the registers, error entry (R247, R249), leaving the halt
(R250), reset (R280). -/

namespace Sys2Proof.Machine

/-! ## The buffer as a memory (20_memory.md) -/

/-- One byte of the memory; an unlisted address reads as `Config.unlistedByte`. -/
def Memory.read : List Host.Cell → Nat → Byte
  | [], _ => Config.unlistedByte
  | (a, b) :: m, x => if a = x then b else Memory.read m x

/-- The memory with byte `v` at `x`, in canonical form.  No instruction calls it: "There is no store" (R53); it is for
placing a buffer from outside (`State.placeRecord`). -/
def Memory.write : List Host.Cell → Nat → Byte → List Host.Cell
  | [], x, v => if v = Config.unlistedByte then [] else [(x, v)]
  | (a, b) :: m, x, v =>
    if x < a then if v = Config.unlistedByte then (a, b) :: m else (x, v) :: (a, b) :: m
    else if x = a then if v = Config.unlistedByte then m else (x, v) :: m
    else (a, b) :: Memory.write m x v

/-- The bytes of `bs` from address `a` on, and nothing else, in canonical form. -/
def Memory.ofBytesAt (a : Nat) : List Byte → List Host.Cell
  | [] => []
  | b :: bs =>
    if b = Config.unlistedByte then Memory.ofBytesAt (a + 1) bs else (a, b) :: Memory.ofBytesAt (a + 1) bs

/-- The bytes of `bs` written one by one from address `a` on. -/
def Memory.writeBytes (m : List Host.Cell) (a : Nat) : List Byte → List Host.Cell
  | [] => m
  | b :: bs => Memory.writeBytes (Memory.write m a b) (a + 1) bs

/-- The canonical form: addresses strictly rising, no entry that an unlisted address reads as. -/
abbrev Memory.wf (m : List Host.Cell) : Prop :=
  m.Pairwise (fun x y => x.1 < y.1) ∧ ∀ c ∈ m, c.2 ≠ Config.unlistedByte

/-- `BUF` as the byte sequence the decoder is given: `BUFLEN` bytes (R36, R50). -/
def State.buf (s : State) : ByteSeq := ⟨s.buflen.toNat, Memory.read s.mem⟩

/-- `BUF <- b; BUFLEN <- len(b)` (R61, R201), for `len(b) < 2^OFFW`. -/
def State.bindBuffer (b : List Byte) (s : State) : State :=
  { s with mem := Memory.ofBytesAt 0 b, buflen := BitVec.ofNat Config.offw b.length }

/-- `value_range` as the host reads it by its own path, `BUF[R_VSTART .. R_NEXT)` (R67); no step of the block. -/
def State.valueBytes (s : State) : Option (List Byte) :=
  s.result.map fun r => s.buf.slice r.rVstart.toNat r.rNext.toNat

/-! ## Registers -/

/-- Hands `r` to the host (R10 `resp := X`). -/
def State.answer (r : Reply) (s : State) : State := { s with reply := some r }

/-- `CURSOR <- off` (R22). -/
def State.setCursor (off : Offset) (s : State) : State := { s with cursor := off }

/-- `KIND <- RECORD; ERR <- 0` and the four result registers take the record (R157, R174). -/
def State.putRecord (r : Result) (s : State) : State :=
  { s with kind := .record, err := none, result := some r }

/-- `KIND <- END; ERR <- 0`, the result registers lose their value (R174). -/
def State.putEnd (s : State) : State := { s with kind := .atEnd, err := none, result := none }

/-- `KIND <- ERROR; ERR <- code(e)`, the result registers lose their value: what every decode error does (R247, R249). -/
def State.putError (e : DecodeError) (s : State) : State :=
  { s with kind := .error, err := some e, result := none }

/-- `HALT <- 1` (R29). -/
def State.setHalt (s : State) : State := { s with halt := true }

/-- Leaving the halted state (R29, R250) as `BIND`, `SEEK` and reset do it: `HALT <- 0; KIND <- NONE; ERR <- 0`, the
result registers lose their value. -/
def State.clearScan (s : State) : State :=
  { s with halt := false, kind := .none, err := none, result := none }

/-! ## Ending a decode -/

/-- The offset a site decodes at: `CURSOR` for `NEXT` (R174), the operand for `DECODE_AT` (R157). -/
def Site.offset (site : Site) (s : State) : Nat :=
  match site with
  | .scan => s.cursor.toNat
  | .peek off => off.toNat

/-- Error entry.  A failing `NEXT` sets `HALT` and does not write `CURSOR` (R247); a failing `DECODE_AT` touches
neither (R249).  The error is the response. -/
def raiseError (site : Site) (e : DecodeError) (s : State) : State :=
  match site with
  | .scan => (s.putError e).setHalt.answer (.response (.error e))
  | .peek _ => (s.putError e).answer (.response (.error e))

/-- A decoded record is yielded: the result registers take it and, for `NEXT` only, `CURSOR <- h.next` in the same
step (R174, R175, R158). -/
def yieldRecord (site : Site) (h : Header) (s : State) : State :=
  match site with
  | .scan => ((s.putRecord h.toResult).setCursor h.toResult.rNext).answer (.response (.record h.toResult))
  | .peek _ => (s.putRecord h.toResult).answer (.response (.record h.toResult))

/-- The end of a decode at a site: the record or the error (R157, R174). -/
def deliver (site : Site) (d : Except DecodeError Header) (s : State) : State :=
  match d with
  | .ok h => yieldRecord site h s
  | .error e => raiseError site e s

/-! ## Reset and what the step does around an instruction -/

/-- Reset as an event (R280): the state of R39 in one step.  "Reset does not touch memory" (R281).
It is no command and has no response (vector H1). -/
def State.afterReset (s : State) : State :=
  { s.clearScan with cursor := 0, buflen := 0, reply := none }

/-- The answer to a reserved command code: `REFUSED`, "changes no state" (R206). -/
def refuseCommand (s : State) : State := s.answer (.response .refused)

/-- The host's next action, taken from the inbox (log 8). -/
def State.takeEvent (s : State) : Option (HostEvent × State) :=
  match s.inbox with
  | [] => none
  | e :: rest => some (e, { s with inbox := rest })

/-- A record of type `type` placed where the next step decodes one (log 15): the bytes of its type field at `CURSOR`
and zeros after it up to the longest header (18 bytes, R124), `BUFLEN` large enough for an implied value, `HALT` clear,
and a `NEXT` the host's next action. `CURSOR` moves to 0 only where the record would not fit above it. -/
def State.placeRecord (type : Word) (s : State) : State :=
  let field := intCodec.enc type
  let size := 18 + (impliedLength type).getD 0
  let at_ := if s.cursor.toNat + size < 2 ^ Config.offw then s.cursor else 0
  { s with
    cursor := at_
    halt := false
    mem := Memory.writeBytes s.mem at_.toNat (field ++ List.replicate (18 - field.length) 0)
    buflen := BitVec.ofNat Config.offw (max s.buflen.toNat (at_.toNat + size))
    inbox := .command ⟨0x03, 0, []⟩ :: s.inbox }

/-- A command code placed as the host's next action, its operand lanes zero (log 15). -/
def State.placeCommand (code : BitVec 8) (s : State) : State :=
  { s with inbox := .command ⟨code, 0, []⟩ :: s.inbox }

end Sys2Proof.Machine
end

