-- ==== Sys2Proof/Machine/Commands.lean ====
section
/-! DEFINITION. The meanings of the four host commands (R201, R173, R174, R157).  The step has already taken the command
from the host's inbox. -/

namespace Sys2Proof.Machine

/-- `BIND b` (R201): the buffer and `BUFLEN`, `CURSOR <- 0`, all of `STATUS` cleared, the result registers lose their
value, response `OK`.  A length of `2^OFFW` or more cannot be expressed (R206). -/
def execBind (b : List Byte) (s : State) : Host.Outcome State Fault Refusal :=
  if b.length < 2 ^ Config.offw then
    .next (((s.bindBuffer b).setCursor 0).clearScan.answer (.response .ok))
  else .refused .bindLengthNotExpressible

/-- `SEEK off` (R173): `CURSOR <- off`, the halt and `STATUS` cleared, the result registers lose their value,
response `OK`.  Every offset is accepted. -/
def execSeek (off : Offset) (s : State) : Host.Outcome State Fault Refusal :=
  .next ((s.setCursor off).clearScan.answer (.response .ok))

/-- `NEXT` (R174): `HALTED` while halted, with nothing written (R177); `END` when `CURSOR = BUFLEN` (R178); else one
record decoded at `CURSOR`. -/
def execNext (s : State) : Host.Outcome State Fault Refusal :=
  if s.halt then .next (s.answer (.response .halted))
  else if s.cursor = s.buflen then .next (s.putEnd.answer (.response .atEnd))
  else .next (deliver .scan (decodeOne intCodec s.buf s.cursor.toNat) s)

/-- `DECODE_AT off` (R157): one record decoded at `off`, outside the scan (R158). -/
def execDecodeAt (off : Offset) (s : State) : Host.Outcome State Fault Refusal :=
  .next (deliver (.peek off) (decodeOne intCodec s.buf off.toNat) s)

end Sys2Proof.Machine
end

