-- ==== Sys2Proof/Machine/Operands.lean ====
section
/-! DEFINITION. The operand forms of a record (R85): the type field's size, the implied length, the explicit length;
and the header they give at a site (R81, R82). -/

namespace Sys2Proof.Machine

/-- `n1`, the size of the type field: `len(IntEnc(type))` (R81, R82, R114). -/
def typeFieldSize (type : Word) : Nat := (intCodec.enc type).length

/-- The explicit length field at offset `at_`: the scalar and the bytes it consumed, or `Fail` (R85 item 2, R150). -/
def explicitLength (s : State) (at_ : Nat) : Option (Word × Nat) := intCodec.dec s.buf at_

/-- Format I (R81): vstart = off + n1; the value of `length` bytes must lie in the buffer.  No byte is read. -/
def impliedHeader (s : State) (off : Nat) (type : Word) (length : Nat) : Except DecodeError Header :=
  if s.buflen.toNat - (off + typeFieldSize type) < length then .error .truncatedValue
  else .ok ⟨type, BitVec.ofNat 64 length, off + typeFieldSize type, off + typeFieldSize type + length⟩

/-- Format X (R82, R150): the length is the scalar after the type field; `MalformedInteger(Length)` when there is none,
`TruncatedValue` when it exceeds the bytes left. -/
def explicitHeader (s : State) (off : Nat) (type : Word) : Except DecodeError Header :=
  match explicitLength s (off + typeFieldSize type) with
  | none => .error (.malformedInteger .length)
  | some (l, n2) =>
    if l.toNat > s.buflen.toNat - (off + typeFieldSize type + n2) then .error .truncatedValue
    else .ok ⟨type, l, off + typeFieldSize type + n2, off + typeFieldSize type + n2 + l.toNat⟩

/-- A format-I record of class `cls` and slot `slot`, its length `length`, run at a site (R134 to R149). -/
def runImplied (site : Site) (cls : BitVec 4) (slot : BitVec 3) (length : Nat) (s : State) : State :=
  deliver site (impliedHeader s (Site.offset site s) (impliedType cls slot) length) s

/-- A format-X record run at a site (R150, R151). -/
def runExplicit (site : Site) (type : Word) (s : State) : State :=
  deliver site (explicitHeader s (Site.offset site s) type) s

end Sys2Proof.Machine
end

