-- ==== Sys2Proof/Machine/Records.lean ====
section
/-! DEFINITION. The meanings of the records (41_header_decode.md R134 to R151), each over the shared operand forms:
the class and the length of each rule are written out as the rule gives them.  A record is run at a site, whatever `HALT` is
(DEDUCED, log 11). -/

namespace Sys2Proof.Machine

/-- `REC.I0` (R134): types 0 to 7, class 0; `length <- 1; vstart <- off + n1; next <- off + n1 + 1`. -/
def execRecI0 (site : Site) (slot : BitVec 3) (s : State) : Host.Outcome State Fault Refusal :=
  .next (runImplied site 0 slot 1 s)

/-- `REC.I1` (R135): types 8 to 15, class 1; `length <- 2; vstart <- off + n1; next <- off + n1 + 2`. -/
def execRecI1 (site : Site) (slot : BitVec 3) (s : State) : Host.Outcome State Fault Refusal :=
  .next (runImplied site 1 slot 2 s)

/-- `REC.I2` (R136): types 16 to 23, class 2; `length <- 4; vstart <- off + n1; next <- off + n1 + 4`. -/
def execRecI2 (site : Site) (slot : BitVec 3) (s : State) : Host.Outcome State Fault Refusal :=
  .next (runImplied site 2 slot 4 s)

/-- `REC.I3` (R137): types 24 to 31, class 3; `length <- 8; vstart <- off + n1; next <- off + n1 + 8`. -/
def execRecI3 (site : Site) (slot : BitVec 3) (s : State) : Host.Outcome State Fault Refusal :=
  .next (runImplied site 3 slot 8 s)

/-- `REC.I4` (R138): types 32 to 39, class 4; `length <- 16; vstart <- off + n1; next <- off + n1 + 16`. -/
def execRecI4 (site : Site) (slot : BitVec 3) (s : State) : Host.Outcome State Fault Refusal :=
  .next (runImplied site 4 slot 16 s)

/-- `REC.I5` (R139): types 40 to 47, class 5; `length <- 32; vstart <- off + n1; next <- off + n1 + 32`. -/
def execRecI5 (site : Site) (slot : BitVec 3) (s : State) : Host.Outcome State Fault Refusal :=
  .next (runImplied site 5 slot 32 s)

/-- `REC.I6` (R140): types 48 to 55, class 6; `length <- 64; vstart <- off + n1; next <- off + n1 + 64`. -/
def execRecI6 (site : Site) (slot : BitVec 3) (s : State) : Host.Outcome State Fault Refusal :=
  .next (runImplied site 6 slot 64 s)

/-- `REC.I7` (R141): types 56 to 63, class 7; `length <- 128; vstart <- off + n1; next <- off + n1 + 128`. -/
def execRecI7 (site : Site) (slot : BitVec 3) (s : State) : Host.Outcome State Fault Refusal :=
  .next (runImplied site 7 slot 128 s)

/-- `REC.I8` (R142): types 64 to 71, class 8; `length <- 256; vstart <- off + n1; next <- off + n1 + 256`. -/
def execRecI8 (site : Site) (slot : BitVec 3) (s : State) : Host.Outcome State Fault Refusal :=
  .next (runImplied site 8 slot 256 s)

/-- `REC.I9` (R143): types 72 to 79, class 9; `length <- 512; vstart <- off + n1; next <- off + n1 + 512`. -/
def execRecI9 (site : Site) (slot : BitVec 3) (s : State) : Host.Outcome State Fault Refusal :=
  .next (runImplied site 9 slot 512 s)

/-- `REC.I10` (R144): types 80 to 87, class 10; `length <- 1024; vstart <- off + n1; next <- off + n1 + 1024`. -/
def execRecI10 (site : Site) (slot : BitVec 3) (s : State) : Host.Outcome State Fault Refusal :=
  .next (runImplied site 10 slot 1024 s)

/-- `REC.I11` (R145): types 88 to 95, class 11; `length <- 2048; vstart <- off + n1; next <- off + n1 + 2048`. -/
def execRecI11 (site : Site) (slot : BitVec 3) (s : State) : Host.Outcome State Fault Refusal :=
  .next (runImplied site 11 slot 2048 s)

/-- `REC.I12` (R146): types 96 to 103, class 12; `length <- 4096; vstart <- off + n1; next <- off + n1 + 4096`. -/
def execRecI12 (site : Site) (slot : BitVec 3) (s : State) : Host.Outcome State Fault Refusal :=
  .next (runImplied site 12 slot 4096 s)

/-- `REC.I13` (R147): types 104 to 111, class 13; `length <- 8192; vstart <- off + n1; next <- off + n1 + 8192`. -/
def execRecI13 (site : Site) (slot : BitVec 3) (s : State) : Host.Outcome State Fault Refusal :=
  .next (runImplied site 13 slot 8192 s)

/-- `REC.I14` (R148): types 112 to 119, class 14; `length <- 16384; vstart <- off + n1; next <- off + n1 + 16384`. -/
def execRecI14 (site : Site) (slot : BitVec 3) (s : State) : Host.Outcome State Fault Refusal :=
  .next (runImplied site 14 slot 16384 s)

/-- `REC.I15` (R149): types 120 to 127, class 15; `length <- 32768; vstart <- off + n1; next <- off + n1 + 32768`. -/
def execRecI15 (site : Site) (slot : BitVec 3) (s : State) : Host.Outcome State Fault Refusal :=
  .next (runImplied site 15 slot 32768 s)

/-- `REC.XS` (R150): types 128 to 247; the length is the scalar after the type field. -/
def execRecXS (site : Site) (type : Word) (s : State) : Host.Outcome State Fault Refusal :=
  .next (runExplicit site type s)

/-- `REC.XM` (R151): types 248 and above; "those of rule R150 word for word". -/
def execRecXM (site : Site) (type : Word) (s : State) : Host.Outcome State Fault Refusal :=
  .next (runExplicit site type s)

end Sys2Proof.Machine
end

