-- ==== Sys2Proof/Machine/Reference.lean ====
section
/-! DEFINITION. The functions of the specification that are no commands of the block: the reference encoder
(44_encode_reference.md) and the whole scan (R181), for every Integer Codec. -/

namespace Sys2Proof.Machine

/-- `EncodeRecord(type, value)` (R220), for `len(value) < 2^64`.  That a longer value under a type
from 128 on gets its length modulo `2^64` in the length field, where R220 defines nothing, is the model's choice (DESIGN
CHOICE, log 20). -/
def encodeRecord (C : IntCodec) (type : Word) (value : List Byte) : Except EncodeError (List Byte) :=
  match impliedLength type with
  | some l => if value.length ≠ l then .error .lengthMismatch else .ok (C.enc type ++ value)
  | none => .ok (C.enc type ++ C.enc (BitVec.ofNat 64 value.length) ++ value)

/-- `EncodeStream` (R227): the encodings in order, with nothing between them, for a list whose pairs are all accepted.
R227 does not define it for any other list: that it then gives the error of the first pair not accepted, and no bytes, is
the model's choice (DESIGN CHOICE, log 20). -/
def encodeStream (C : IntCodec) : List (Word × List Byte) → Except EncodeError (List Byte)
  | [] => .ok []
  | (type, value) :: rest =>
    match encodeRecord C type value with
    | .error e => .error e
    | .ok bytes =>
      match encodeStream C rest with
      | .error e => .error e
      | .ok tail => .ok (bytes ++ tail)

/-- `ENCODE_RECORD` (R220): "it touches no register"; the bytes or the error are handed to the host (log 12).
A value of `2^64` bytes or more is outside its operands. -/
def execEncodeRecord (type : Word) (value : List Byte) (s : State) : Host.Outcome State Fault Refusal :=
  if value.length < 2 ^ 64 then
    .next <| s.answer <|
      match encodeRecord intCodec type value with
      | .ok bytes => .encoded bytes
      | .error e => .encodeError e
  else .refused .valueLengthNotExpressible

/-- How a scan ends (R181). -/
inductive Terminal where
  | done
  | failed (e : DecodeError) (off : Nat)
deriving DecidableEq, Repr

/-- `ScanFrom` (R181) with at most `fuel` calls; `none` when they do not suffice. -/
def scanFuel (C : IntCodec) (B : ByteSeq) : Nat → Nat → Option (List Header × Terminal)
  | 0, _ => none
  | fuel + 1, off =>
    if off = B.len then some ([], .done)
    else
      match decodeOne C B off with
      | .error e => some ([], .failed e off)
      | .ok h => (scanFuel C B fuel h.next).map fun (hs, t) => (h :: hs, t)

/-- `ScanFrom(B, off)` (R181): `len(B) + 1` calls suffice, since every record ends inside the buffer and beyond its start
(R153, R155). -/
def scanFrom (C : IntCodec) (B : ByteSeq) (off : Nat) : Option (List Header × Terminal) :=
  scanFuel C B (B.len + 1) off

/-- `Scan(B) := ScanFrom(B, 0)` (R181). -/
def scan (C : IntCodec) (B : ByteSeq) : Option (List Header × Terminal) := scanFrom C B 0

end Sys2Proof.Machine
end

