-- ==== Sys2Proof/Machine/Dispatch.lean ====
section
/-! DEFINITION. One arm per constructor of `Instr`, each one direct call of its meaning. -/

namespace Sys2Proof.Machine

def exec (i : Instr) (s : State) : Host.Outcome State Fault Refusal :=
  match i with
  | .recI0 site slot => Sys2Proof.Machine.execRecI0 site slot s
  | .recI1 site slot => Sys2Proof.Machine.execRecI1 site slot s
  | .recI2 site slot => Sys2Proof.Machine.execRecI2 site slot s
  | .recI3 site slot => Sys2Proof.Machine.execRecI3 site slot s
  | .recI4 site slot => Sys2Proof.Machine.execRecI4 site slot s
  | .recI5 site slot => Sys2Proof.Machine.execRecI5 site slot s
  | .recI6 site slot => Sys2Proof.Machine.execRecI6 site slot s
  | .recI7 site slot => Sys2Proof.Machine.execRecI7 site slot s
  | .recI8 site slot => Sys2Proof.Machine.execRecI8 site slot s
  | .recI9 site slot => Sys2Proof.Machine.execRecI9 site slot s
  | .recI10 site slot => Sys2Proof.Machine.execRecI10 site slot s
  | .recI11 site slot => Sys2Proof.Machine.execRecI11 site slot s
  | .recI12 site slot => Sys2Proof.Machine.execRecI12 site slot s
  | .recI13 site slot => Sys2Proof.Machine.execRecI13 site slot s
  | .recI14 site slot => Sys2Proof.Machine.execRecI14 site slot s
  | .recI15 site slot => Sys2Proof.Machine.execRecI15 site slot s
  | .recXS site type => Sys2Proof.Machine.execRecXS site type s
  | .recXM site type => Sys2Proof.Machine.execRecXM site type s
  | .bind b => Sys2Proof.Machine.execBind b s
  | .seek off => Sys2Proof.Machine.execSeek off s
  | .next => Sys2Proof.Machine.execNext s
  | .decodeAt off => Sys2Proof.Machine.execDecodeAt off s
  | .encodeRecord type value => Sys2Proof.Machine.execEncodeRecord type value s

end Sys2Proof.Machine
end

