-- ==== Sys2Proof/Machine/Flags.lean ====
section
/-! DEFINITION. `STATUS` and its fields' codes (R26 to R30), the response codes (R93), and the register read (R21, R205). -/

namespace Sys2Proof.Machine

/-- The code of `KIND` (R27). -/
def Kind.code : Kind → BitVec 2
  | .none => 0
  | .record => 1
  | .atEnd => 2
  | .error => 3

/-- The code of an error (R28, R240). -/
def DecodeError.code : DecodeError → BitVec 3
  | .malformedInteger .type => 1
  | .malformedInteger .length => 2
  | .truncatedValue => 3

/-- The code that names the encoder's error; it never appears in `STATUS` (R28, R222). -/
def EncodeError.code : EncodeError → BitVec 3
  | .lengthMismatch => 4

/-- `STATUS.ERR` (R28): 0 when there is no error. -/
def State.errCode (s : State) : BitVec 3 :=
  match s.err with
  | none => 0
  | some e => e.code

/-- `STATUS.EXPL` (R30): computed from `R_TYPE`, 1 when `KIND = RECORD` and `R_TYPE >= 128`. -/
def State.expl (s : State) : Bool :=
  match s.kind, s.result with
  | .record, some r => Config.impliedLimit ≤ r.rType.toNat
  | _, _ => false

/-- `STATUS` (R26): bit 7 reads 0, bit 6 `EXPL`, bit 5 `HALT`, bits 4:2 `ERR`, bits 1:0 `KIND`. -/
def State.statusWord (s : State) : BitVec 8 :=
  (0 : BitVec 1) ++ BitVec.ofBool s.expl ++ BitVec.ofBool s.halt ++ s.errCode ++ s.kind.code

/-- The code of a response (R93). -/
def Response.code : Response → Nat
  | .ok => 0
  | .record _ => 1
  | .atEnd => 2
  | .error _ => 3
  | .halted => 4
  | .refused => 5

/-- A result register's content, `none` while the registers hold no value (R33). -/
def State.resultRegister (s : State) (field : Result → Word) : Reply × Nat :=
  match s.kind, s.result with
  | .record, some r => (.value (field r), s.freeCount)
  | _, _ => (.value (Config.freeRead s.freeCount), s.freeCount + 1)

/-- The register read `rd n` (R21, R205): what the host is handed and the count of free values after it.
A result register read while `KIND` is not `RECORD` gives an unspecified value (R205, log 7); a number above 6 is
answered `REFUSED` (R206).  Registers narrower than 64 bits are handed zero-extended. -/
def State.readRegister (s : State) (reg : Nat) : Reply × Nat :=
  match reg with
  | 0 => (.value (s.cursor.setWidth 64), s.freeCount)
  | 1 => (.value (s.buflen.setWidth 64), s.freeCount)
  | 2 => (.value (s.statusWord.setWidth 64), s.freeCount)
  | 3 => s.resultRegister Result.rType
  | 4 => s.resultRegister Result.rLength
  | 5 => s.resultRegister fun r => r.rVstart.setWidth 64
  | 6 => s.resultRegister fun r => r.rNext.setWidth 64
  | _ => (.response .refused, s.freeCount)

/-- The register read as the host's action: it changes nothing of the spec's state (R205). -/
def runRead (reg : Nat) (s : State) : State :=
  { s.answer (s.readRegister reg).1 with freeCount := (s.readRegister reg).2 }

end Sys2Proof.Machine
end

