-- ==== Sys2Proof/Machine/Step.lean ====
section
/-! DEFINITION. One step of the machine (R200) and where an instruction is placed for it. -/

namespace Sys2Proof.Machine

/-- A host command, already taken from the inbox: it decodes and runs, or is answered `REFUSED` (R200, R206). -/
def runCommand (c : Command) (s : State) : Host.Outcome State Fault Refusal :=
  match decode (.command c) with
  | .ok i => exec i s
  | .error _ => .next (refuseCommand s)

/-- One step: the host's next action, run to completion (R200).  With none the block does nothing: "between commands its
state does not change".  Register reads and reset are the host's actions too (R205, R280; log 8). -/
def step (s : State) : Host.Outcome State Fault Refusal :=
  match s.takeEvent with
  | none => .next s
  | some (.reset, s) => .next s.afterReset
  | some (.read reg, s) => .next (runRead reg s)
  | some (.command c, s) => runCommand c s

/-- The word of an opcode-table row placed where `step` takes its next instruction (log 15, log 17): a command code at
the head of the inbox, or a record at `CURSOR` with a `NEXT` to decode it. -/
def State.withFetchWord (s : State) (nbits w : Nat) : State :=
  if nbits ≤ 8 then s.placeCommand (BitVec.ofNat 8 w) else s.placeRecord (BitVec.ofNat 64 w)

end Sys2Proof.Machine
end

