-- ==== Sys2Proof/Machine/Instances.lean ====
section
/-! DEFINITION. Several instances of the block (R7 `NINST`, R259): each has its complete state, nothing is shared but the
read-only content of a buffer two of them are bound to, which each state holds for itself (log 3). -/

namespace Sys2Proof.Machine

/-- One step of instance `k`, the others untouched; no instance `k`, no step. -/
def stepInstance (k : Nat) (ss : List State) : Host.Outcome (List State) Fault Refusal :=
  match ss[k]? with
  | none => .next ss
  | some s =>
    match step s with
    | .next t => .next (ss.set k t)
    | .fault r => .fault r
    | .refused r => .refused r

/-- `n` steps of one instance alone. -/
def stepTimes : Nat → State → Host.Outcome State Fault Refusal
  | 0, s => .next s
  | n + 1, s =>
    match step s with
    | .next t => stepTimes n t
    | .fault r => .fault r
    | .refused r => .refused r

/-- The instances run in the order of a schedule: one interleaving of their steps (R259). -/
def runSchedule : List Nat → List State → Host.Outcome (List State) Fault Refusal
  | [], ss => .next ss
  | k :: ks, ss =>
    match stepInstance k ss with
    | .next ss' => runSchedule ks ss'
    | .fault r => .fault r
    | .refused r => .refused r

end Sys2Proof.Machine
end

