-- ==== Sys2Proof/Safety.lean ====
section
/-! DEFINITION. What the claims speak of: the states the rules say a decode leaves, the rows of the implied-length table,
and the invariants of a run. -/

namespace Sys2Proof.Machine

/-! ## What a decode leaves (R157, R174, R247, R249), written out register by register -/

/-- After a record `r` is yielded at a site: the result registers, `KIND = RECORD`, `ERR = 0`, `CURSOR` moved by `NEXT`
only, the response; every other field as before. -/
def yielded (site : Site) (r : Result) (s : State) : State :=
  { s with
    cursor := if site = .scan then r.rNext else s.cursor
    kind := .record
    err := none
    result := some r
    reply := some (.response (.record r)) }

/-- After a decode failed at a site: `KIND = ERROR`, `ERR` the error, `HALT` set by `NEXT` only, the result registers
without value, the response; every other field as before, `CURSOR` among them. -/
def failed (site : Site) (e : DecodeError) (s : State) : State :=
  { s with
    kind := .error
    err := some e
    halt := if site = .scan then true else s.halt
    result := none
    reply := some (.response (.error e)) }

/-! ## The implied-length table (R134 to R149) -/

/-- A row: the constructor, the first type of the class and the implied length. -/
structure ImpliedRow where
  make      : Site → BitVec 3 → Instr
  firstType : Nat
  length    : Nat

/-- `REC.I0` to `REC.I7`, R134 to R141. -/
def impliedRowsLow : List ImpliedRow :=
  [⟨.recI0, 0, 1⟩, ⟨.recI1, 8, 2⟩, ⟨.recI2, 16, 4⟩, ⟨.recI3, 24, 8⟩,
   ⟨.recI4, 32, 16⟩, ⟨.recI5, 40, 32⟩, ⟨.recI6, 48, 64⟩, ⟨.recI7, 56, 128⟩]

/-- `REC.I8` to `REC.I15`, R142 to R149. -/
def impliedRowsHigh : List ImpliedRow :=
  [⟨.recI8, 64, 256⟩, ⟨.recI9, 72, 512⟩, ⟨.recI10, 80, 1024⟩, ⟨.recI11, 88, 2048⟩,
   ⟨.recI12, 96, 4096⟩, ⟨.recI13, 104, 8192⟩, ⟨.recI14, 112, 16384⟩, ⟨.recI15, 120, 32768⟩]

/-- What the rules R134 to R149 say of one row, at a site whose offset is `off`, with `n1` the size of the type field:
the record when its value fits, `TruncatedValue` when it does not; in every state (log 11: a record run by itself decodes
whatever `HALT` is, and by its own type). -/
def ImpliedRow.Holds (row : ImpliedRow) : Prop :=
  ∀ (site : Site) (slot : BitVec 3) (s : State) (type : Word) (off n1 : Nat),
    type = BitVec.ofNat 64 (row.firstType + slot.toNat) →
    off = Site.offset site s →
    n1 = (intCodec.enc type).length →
    (off + n1 + row.length ≤ s.buflen.toNat →
      exec (row.make site slot) s = .next (yielded site
        ⟨type, BitVec.ofNat 64 row.length, BitVec.ofNat 64 (off + n1), BitVec.ofNat 64 (off + n1 + row.length)⟩ s)) ∧
    (s.buflen.toNat < off + n1 + row.length → exec (row.make site slot) s = .next (failed site .truncatedValue s))

/-- What R150 and R151 say of a format-X record of type `type`: the length is the scalar after the type field; in every
state (log 11). -/
def ExplicitHolds (make : Site → Word → Instr) (type : Word) : Prop :=
  ∀ (site : Site) (s : State) (off n1 : Nat),
    off = Site.offset site s →
    n1 = (intCodec.enc type).length →
    (intCodec.dec s.buf (off + n1) = none →
      exec (make site type) s = .next (failed site (.malformedInteger .length) s)) ∧
    (∀ l n2, intCodec.dec s.buf (off + n1) = some (l, n2) →
      (off + n1 + n2 + l.toNat ≤ s.buflen.toNat →
        exec (make site type) s = .next (yielded site
          ⟨type, l, BitVec.ofNat 64 (off + n1 + n2), BitVec.ofNat 64 (off + n1 + n2 + l.toNat)⟩ s)) ∧
      (s.buflen.toNat < off + n1 + n2 + l.toNat →
        exec (make site type) s = .next (failed site .truncatedValue s)))

/-! ## The invariant of a run -/

/-- What holds of every state a run can reach: the memory is canonical; the result registers hold a value exactly when
`KIND = RECORD` (R33) and then a record of the bound buffer (R32); `ERR` is non-zero exactly when `KIND = ERROR` (R28);
`KIND = END` means the scanner is at the end and not halted (R27, R178); `HALT` means the record at `CURSOR` fails
(R29, R180, R248). -/
structure Inv (s : State) : Prop where
  memoryCanonical : Memory.wf s.mem
  resultIffRecord : s.result.isSome = true ↔ s.kind = .record
  errIffError : s.err.isSome = true ↔ s.kind = .error
  resultDecoded : ∀ r, s.result = some r →
    ∃ off h, off < 2 ^ Config.offw ∧ decodeOne intCodec s.buf off = .ok h ∧ r = h.toResult
  endMeansAtEnd : s.kind = .atEnd → s.cursor = s.buflen ∧ s.halt = false
  haltMeansFailing : s.halt = true →
    s.cursor ≠ s.buflen ∧ ∃ e, decodeOne intCodec s.buf s.cursor.toNat = .error e

/-! ## What two states or two buffers share -/

/-- Two byte sequences that are the same sequence: equal lengths, equal elements. -/
def SameBytes (B B' : ByteSeq) : Prop := B.len = B'.len ∧ ∀ i < B.len, B.byte i = B'.byte i

/-- Two states that agree on all a `NEXT` reads (R37): `BUF`, `BUFLEN`, `CURSOR`, `HALT`. -/
def SameScan (s s' : State) : Prop := SameBytes s.buf s'.buf ∧ s.cursor = s'.cursor ∧ s.halt = s'.halt

/-- The buffer, the host's remaining actions and the count of free values are as before. -/
def KeepsBuffer (s t : State) : Prop :=
  t.buflen = s.buflen ∧ (∀ a, Memory.read t.mem a = Memory.read s.mem a) ∧ t.inbox = s.inbox ∧ t.freeCount = s.freeCount

end Sys2Proof.Machine
end

