-- ==== Sys2Proof/Certificates/Slice0/Obligations.lean ====
section
/-! DEFINITION. The statements for the provers, one per rule or group of rules of spec/. -/

open Sys2Proof Sys2Proof.Machine

/-! ## Encoding -/

/-- R92: the command codes; a reserved code is answered `REFUSED` with no state change.  That the port carries two operand
lanes and that a command ignores the lane it has no operand in, which the clauses say by quantifying over both, is the
model's choice (log 9), and R92 says nothing of it. -/
def Obligations.CommandCodesDecodeAsTheTableSays : Prop :=
  (∀ off data, decode (.command ⟨0x01, off, data⟩) = .ok (.bind data)) ∧
  (∀ off data, decode (.command ⟨0x02, off, data⟩) = .ok (.seek off)) ∧
  (∀ off data, decode (.command ⟨0x03, off, data⟩) = .ok .next) ∧
  (∀ off data, decode (.command ⟨0x04, off, data⟩) = .ok (.decodeAt off)) ∧
  (∀ (c : Command) (s : State), c.code = 0x00 ∨ 0x05 ≤ c.code →
    decode (.command c) = .error (.reservedCommandCode c.code) ∧
    runCommand c s = .next { s with reply := some (.response .refused) })

/-- R86, R87: the first row of the table whose mask and match fit a type is the row of the decoded instruction, its
range holds the type, and no other row's range does. -/
def Obligations.EveryTypeSelectsExactlyOneTableRow : Prop :=
  ∀ (site : Site) (type : Word), ∃ row, selectRow type = some row ∧
    row.mnemonic = (decodeType site type).mnemonic ∧
    row.typeMin ≤ type.toNat ∧ type.toNat ≤ row.typeMax ∧
    ∀ row' ∈ wireRows, row'.typeMin ≤ type.toNat → type.toNat ≤ row'.typeMax → row' = row

/-- R89: every type decodes, to a well-formed record that keeps every bit of the type. -/
def Obligations.EveryTypeDecodesAndKeepsItsBits : Prop :=
  ∀ (site : Site) (type : Word), ∃ i, decode (.record site type) = .ok i ∧ i.WellFormed ∧
    i.wireType = some (site, type) ∧ encode i = some (.record site type)

/-- Decode and encode agree, for every well-formed instruction: as command or type, and for a record as the bytes of its
type field under every conforming codec.  Only `ENCODE_RECORD` has no encoding (R87). -/
def Obligations.DecodingAnEncodedInstructionGivesItBack : Prop :=
  (∀ i : Instr, i.WellFormed → ∀ f, encode i = some f → decode f = .ok i) ∧
  (∀ C : IntCodec, C.Conforms → ∀ (i : Instr) (site : Site) (type : Word), i.WellFormed →
    i.wireType = some (site, type) → ∀ (B : ByteSeq) (off : Nat), B.HasAt off (encodeTypeField C i) →
      decodeRecordAt C site B off = .ok i) ∧
  (∀ i : Instr, encode i = none ↔ ∃ type value, i = .encodeRecord type value)

/-- Words written out from the spec's encodings: the codes of R92, the types of R86, the bytes of R123. -/
def Obligations.SampleWordsDecode : Prop :=
  decodeTableWord 8 0x01 = some (.bind []) ∧ decodeTableWord 8 0x03 = some .next ∧
  decodeTableWord 8 0x05 = none ∧
  decodeTableWord 64 15 = some (.recI1 .scan 7) ∧ decodeTableWord 64 120 = some (.recI15 .scan 0) ∧
  decodeTableWord 64 247 = some (.recXS .scan 247) ∧ decodeTableWord 64 248 = some (.recXM .scan 248) ∧
  decodeRecordAt intCodec .scan (.ofList [0x11, 0x01, 0x02, 0x03, 0x04]) 0 = .ok (.recI2 .scan 1) ∧
  decodeRecordAt intCodec .scan (.ofList [0xf9, 0x01, 0x2c]) 0 = .ok (.recXM .scan 300)

/-! ## The Integer Codec -/

/-- R116: `IntDec` is determined by `IntEnc`; `IntEnc` is injective, never empty and prefix-free. -/
def Obligations.IntDecIsDeterminedByIntEnc : Prop :=
  ∀ C : IntCodec, C.Conforms →
    (∀ B off n c, C.dec B off = some (n, c) ↔
      c = (C.enc n).length ∧ off + c ≤ B.len ∧ B.slice off (off + c) = C.enc n) ∧
    (∀ B off, C.dec B off = none ↔
      ¬ ∃ n, off + (C.enc n).length ≤ B.len ∧ B.slice off (off + (C.enc n).length) = C.enc n) ∧
    (∀ a b, C.enc a = C.enc b → a = b) ∧ (∀ a, C.enc a ≠ []) ∧
    (∀ a b l, C.enc b = C.enc a ++ l → l = [])

/-- R120: the bytes of `VARU64-REF`: one byte below 248; else `247 + k` and the `k` bytes of the number, most significant
first, `k` the least that fits. -/
def Obligations.VaruEncodesInTheShortestForm : Prop :=
  (∀ n : Word, n.toNat < 248 → intCodec.enc n = [BitVec.ofNat 8 n.toNat]) ∧
  (∀ (n : Word) (k : Nat), 248 ≤ n.toNat → 1 ≤ k → k ≤ 8 → n.toNat < 2 ^ (8 * k) →
    (∀ j, 1 ≤ j → j < k → 2 ^ (8 * j) ≤ n.toNat) →
    intCodec.enc n = BitVec.ofNat 8 (247 + k) ::
      (List.range k).map (fun i => BitVec.ofNat 8 (n.toNat / 2 ^ (8 * (k - 1 - i)))))

/-- R121: `VARU64-REF` fails exactly past the end, on a payload cut off by the end, and on a form that is not the
shortest (a one-byte payload below 248; a longer payload whose first byte is 0, R123). -/
def Obligations.VaruFailsExactlyOnBadForms : Prop :=
  ∀ (B : ByteSeq) (off : Nat), intCodec.dec B off = none ↔
    B.len ≤ off ∨ ∃ k, (B.byte off).toNat = 247 + k ∧ 1 ≤ k ∧
      (B.len < off + 1 + k ∨ (k = 1 ∧ (B.byte (off + 1)).toNat < 248) ∨ (1 < k ∧ B.byte (off + 1) = 0))

/-- R122: `VARU64-REF` meets the contract R112 to R115; the first byte fixes a scalar's total length, 1 to 9 bytes (R124);
a decode, failing or not, reads only the bytes its first byte announces, so `IntEnc` is prefix-free.  The codec is from
general knowledge (log 1). -/
def Obligations.VaruMeetsTheContract : Prop :=
  intCodec.Conforms ∧
  (∀ first : Byte, 1 ≤ varSize first ∧ varSize first ≤ 9) ∧
  (∀ n : Word, ∃ first rest, intCodec.enc n = first :: rest ∧ (intCodec.enc n).length = varSize first) ∧
  (∀ B off n c, intCodec.dec B off = some (n, c) → c = varSize (B.byte off)) ∧
  (∀ (B B' : ByteSeq) (off off' : Nat), off + varSize (B.byte off) ≤ B.len → off' + varSize (B.byte off) ≤ B'.len →
    (∀ i, i < varSize (B.byte off) → B'.byte (off' + i) = B.byte (off + i)) →
    intCodec.dec B' off' = intCodec.dec B off) ∧
  (∀ a b l, intCodec.enc b = intCodec.enc a ++ l → a = b ∧ l = [])

/-! ## `DecodeOne`, for every conforming codec and every offset width -/

/-- R153. -/
def Obligations.DecodedRecordLiesInsideTheBuffer : Prop :=
  ∀ C : IntCodec, C.Conforms → ∀ (B : ByteSeq) (off : Nat) (h : Header), decodeOne C B off = .ok h →
    off < h.vstart ∧ h.vstart ≤ h.next ∧ h.next ≤ B.len ∧ h.next = h.vstart + h.length.toNat ∧ off < B.len

/-- R155: a record takes at least two bytes, so a buffer of `L` bytes holds at most `L / 2` of them. -/
def Obligations.RecordsTakeAtLeastTwoBytes : Prop :=
  ∀ C : IntCodec, C.Conforms → ∀ B : ByteSeq,
    (∀ off h, decodeOne C B off = .ok h → off + 2 ≤ h.next) ∧
    (∀ hs t, scan C B = some (hs, t) → hs.length ≤ B.len / 2)

/-- R154: at or beyond the end the answer is `MalformedInteger(Type)`. -/
def Obligations.NoRecordAtOrBeyondTheEnd : Prop :=
  ∀ C : IntCodec, C.Conforms → ∀ (B : ByteSeq) (off : Nat), B.len ≤ off →
    decodeOne C B off = .error (.malformedInteger .type)

/-- R156: a record decodes the same wherever it stands and whatever surrounds it, provided its value fits. -/
def Obligations.RecordDecodesTheSameAnywhere : Prop :=
  ∀ C : IntCodec, C.Conforms → ∀ (B B' : ByteSeq) (off off' : Nat) (h : Header), decodeOne C B off = .ok h →
    (∀ i, i < h.vstart - off → B'.byte (off' + i) = B.byte (off + i)) →
    off' + (h.vstart - off) + h.length.toNat ≤ B'.len →
    decodeOne C B' off' =
      .ok ⟨h.type, h.length, off' + (h.vstart - off), off' + (h.vstart - off) + h.length.toNat⟩

/-- R133: two implied-length types of one class decode alike except for the type itself: with as many bytes left after
their type fields, the same error, or the same length from each field's own end. -/
def Obligations.TheSlotIsIgnored : Prop :=
  ∀ C : IntCodec, C.Conforms → ∀ (B B' : ByteSeq) (off off' n1 n1' : Nat) (type type' : Word),
    C.dec B off = some (type, n1) → C.dec B' off' = some (type', n1') →
    B.len - (off + n1) = B'.len - (off' + n1') →
    type.toNat < 128 → type'.toNat < 128 → type >>> 3 = type' >>> 3 →
    (∀ h, decodeOne C B off = .ok h →
      decodeOne C B' off' = .ok ⟨type', h.length, off' + n1', off' + n1' + (h.next - h.vstart)⟩) ∧
    (∀ e, decodeOne C B off = .error e → decodeOne C B' off' = .error e)

/-- R54: no byte of `value` is ever read.  A decoded record depends on its header bytes only, a truncated one on the
bytes up to its header's end, and every decode on the bytes from `off` on only. -/
def Obligations.OnlyHeaderBytesMatter : Prop :=
  ∀ C : IntCodec, C.Conforms → ∀ (B B' : ByteSeq) (off : Nat), B.len = B'.len →
    (∀ h, decodeOne C B off = .ok h → (∀ i, off ≤ i → i < h.vstart → B'.byte i = B.byte i) →
      decodeOne C B' off = .ok h) ∧
    (∀ type n1, decodeOne C B off = .error .truncatedValue → C.dec B off = some (type, n1) → type.toNat < 128 →
      (∀ i, off ≤ i → i < off + n1 → B'.byte i = B.byte i) → decodeOne C B' off = .error .truncatedValue) ∧
    (∀ type n1 l n2, decodeOne C B off = .error .truncatedValue → C.dec B off = some (type, n1) →
      128 ≤ type.toNat → C.dec B (off + n1) = some (l, n2) →
      (∀ i, off ≤ i → i < off + n1 + n2 → B'.byte i = B.byte i) → decodeOne C B' off = .error .truncatedValue) ∧
    ((∀ i, off ≤ i → i < B.len → B'.byte i = B.byte i) → decodeOne C B' off = decodeOne C B off)

/-- R152, R160: the truncation test is made over natural numbers, so a length near `2^64` never wraps past it. -/
def Obligations.TruncationTestNeverWraps : Prop :=
  ∀ C : IntCodec, C.Conforms → ∀ (B : ByteSeq) (off n1 n2 : Nat) (type length : Word),
    C.dec B off = some (type, n1) → 128 ≤ type.toNat → C.dec B (off + n1) = some (length, n2) →
    (decodeOne C B off = .error .truncatedValue ↔ B.len < off + n1 + n2 + length.toNat) ∧
    (length.toNat = 2 ^ 64 - 1 → B.len < 2 ^ 64 → decodeOne C B off = .error .truncatedValue)

/-! ## The reference encoder and the round trip -/

/-- R222: `LengthMismatch` exactly when the type is below 128 and the value has another length than the implied one. -/
def Obligations.LengthMismatchExactlyForAWrongImpliedLength : Prop :=
  ∀ (C : IntCodec) (type : Word) (value : List Byte),
    (encodeRecord C type value = .error .lengthMismatch ↔
      type.toNat < 128 ∧ value.length ≠ 2 ^ (type.toNat / 8)) ∧
    (∀ (s : State), s.errCode ≠ EncodeError.code .lengthMismatch)

/-- R223: the size of an encoding.  For a value of `2^64` bytes or more, where R223 says nothing, it rests on the model's
choice of the length field (log 20). -/
def Obligations.EncodedRecordSize : Prop :=
  ∀ (C : IntCodec) (type : Word) (value bytes : List Byte), encodeRecord C type value = .ok bytes →
    (type.toNat < 128 → bytes.length = (C.enc type).length + value.length) ∧
    (128 ≤ type.toNat → bytes.length =
      (C.enc type).length + (C.enc (BitVec.ofNat 64 value.length)).length + value.length)

/-- R159, and with empty surroundings R224 and R225: an encoded record decodes to its type, the length of its value, the
range that holds the value, and its own end; with any bytes before and after. -/
def Obligations.EncodedRecordDecodesBack : Prop :=
  ∀ C : IntCodec, C.Conforms → ∀ (type : Word) (value bytes p q : List Byte), value.length < 2 ^ 64 →
    encodeRecord C type value = .ok bytes →
    ∃ h, decodeOne C (.ofList (p ++ bytes ++ q)) p.length = .ok h ∧ h.type = type ∧
      h.length.toNat = value.length ∧ (ByteSeq.ofList (p ++ bytes ++ q)).slice h.vstart h.next = value ∧
      h.next = p.length + bytes.length

/-- R226: a byte string that decodes as one whole record is the encoding of exactly one pair. -/
def Obligations.AcceptedBytesEncodeExactlyOneRecord : Prop :=
  ∀ C : IntCodec, C.Conforms → ∀ (b : List Byte) (h : Header), decodeOne C (.ofList b) 0 = .ok h →
    h.next = b.length →
    encodeRecord C h.type ((ByteSeq.ofList b).slice h.vstart h.next) = .ok b ∧
    ∀ type value, value.length < 2 ^ 64 → encodeRecord C type value = .ok b →
      type = h.type ∧ value = (ByteSeq.ofList b).slice h.vstart h.next

/-! ## Records on the machine -/

/-- R134 to R141: `REC.I0` to `REC.I7`, in every state, at either site: the registers when the value fits (the
instruction completes), `TruncatedValue` when it does not; `CURSOR`, `HALT` and the response as R157, R174 and R247 give
them.  That a record is run by itself, also at the scan site while `HALT = 1` and also where its type field does not stand
at the offset, is the model's choice (log 11, DEDUCED). -/
def Obligations.ImpliedRecordsOfClassesZeroToSeven : Prop := ∀ row ∈ impliedRowsLow, row.Holds

/-- R142 to R149: `REC.I8` to `REC.I15`, likewise; the runs at the scan site while `HALT = 1` and without the type field at
the offset are the model's choice (log 11, DEDUCED). -/
def Obligations.ImpliedRecordsOfClassesEightToFifteen : Prop := ∀ row ∈ impliedRowsHigh, row.Holds

/-- R150, R151: `REC.XS` and `REC.XM`, in every state, at either site: the registers when the length decodes and the
value fits (the instruction completes), the two errors otherwise; `CURSOR`, `HALT` and the response as R157, R174 and R247
give them.  The runs at the scan site while `HALT = 1` and without the type field at the offset are the model's choice
(log 11, DEDUCED). -/
def Obligations.ExplicitRecords : Prop :=
  (∀ type : Word, 128 ≤ type.toNat → type.toNat ≤ 247 → ExplicitHolds .recXS type) ∧
  (∀ type : Word, 248 ≤ type.toNat → ExplicitHolds .recXM type)

/-- The commands run the records: where the bytes at `CURSOR` (for a running scanner) or at the operand of `DECODE_AT`
decode to a record, the command's step is that record's, so R130's algorithm and the rules R134 to R151 agree; where
they decode to none, it is `MalformedInteger(Type)` (R241). -/
def Obligations.CommandsRunTheRecordTheyFind : Prop :=
  (∀ (s : State) (i : Instr), s.halt = false → s.cursor ≠ s.buflen →
    decodeRecordAt intCodec .scan s.buf s.cursor.toNat = .ok i → exec .next s = exec i s) ∧
  (∀ (s : State) (off : Offset) (i : Instr),
    decodeRecordAt intCodec (.peek off) s.buf off.toNat = .ok i → exec (.decodeAt off) s = exec i s) ∧
  (∀ (s : State) (r : DecodeReject), s.halt = false → s.cursor ≠ s.buflen →
    decodeRecordAt intCodec .scan s.buf s.cursor.toNat = .error r →
    exec .next s = .next (failed .scan (.malformedInteger .type) s)) ∧
  (∀ (s : State) (off : Offset) (r : DecodeReject),
    decodeRecordAt intCodec (.peek off) s.buf off.toNat = .error r →
    exec (.decodeAt off) s = .next (failed (.peek off) (.malformedInteger .type) s))

/-! ## The commands -/

/-- R201: `BIND b` completes for every expressible `b`; the buffer, `BUFLEN`, `CURSOR`, all of `STATUS`, the result
registers, the response; nothing else. -/
def Obligations.BindBindsTheBuffer : Prop :=
  ∀ (b : List Byte) (s : State), b.length < 2 ^ 64 → ∃ t, exec (.bind b) s = .next t ∧
    (∀ a (h : a < b.length), t.buf.byte a = b[a]) ∧ t.buflen.toNat = b.length ∧ t.cursor = 0 ∧
    t.halt = false ∧ t.kind = .none ∧ t.err = none ∧ t.result = none ∧ t.statusWord = 0 ∧
    t.reply = some (.response .ok) ∧ t.inbox = s.inbox ∧ t.freeCount = s.freeCount ∧ Memory.wf t.mem

/-- R206: a `BIND` whose length does not fit in `OFFW` bits is outside the model (log 13). -/
def Obligations.BindOutsideTheWidthIsRefused : Prop :=
  ∀ (b : List Byte) (s : State), 2 ^ 64 ≤ b.length → exec (.bind b) s = .refused .bindLengthNotExpressible

/-- R173: `SEEK off` completes for every offset, in every state. -/
def Obligations.SeekMovesTheCursorAndLeavesTheHalt : Prop :=
  ∀ (off : Offset) (s : State), exec (.seek off) s = .next { s with
    cursor := off
    halt := false
    kind := .none
    err := none
    result := none
    reply := some (.response .ok) }

/-- R177: `NEXT` while halted writes nothing and answers `HALTED`. -/
def Obligations.NextWhileHaltedWritesNothing : Prop :=
  ∀ s : State, s.halt = true → exec .next s = .next { s with reply := some (.response .halted) }

/-- R178: `NEXT` at the end answers `END`, any number of times. -/
def Obligations.NextAtTheEndAnswersEnd : Prop :=
  ∀ s : State, s.halt = false → s.cursor = s.buflen → ∃ t, exec .next s = .next t ∧
    t = { s with kind := .atEnd, err := none, result := none, reply := some (.response .atEnd) } ∧
    exec .next t = .next t

/-- R174, R175, R247: a running scanner decodes one record at `CURSOR`: it is yielded and `CURSOR` moves to its end in
the same step, or the error is entered and `CURSOR` stays. -/
def Obligations.NextYieldsTheRecordOrHalts : Prop :=
  ∀ s : State, s.halt = false → s.cursor ≠ s.buflen →
    (∀ h, decodeOne intCodec s.buf s.cursor.toNat = .ok h → ∃ t, exec .next s = .next t ∧
      t = { s with
        cursor := BitVec.ofNat 64 h.next
        kind := .record
        err := none
        result := some ⟨h.type, h.length, BitVec.ofNat 64 h.vstart, BitVec.ofNat 64 h.next⟩
        reply := some (.response (.record
          ⟨h.type, h.length, BitVec.ofNat 64 h.vstart, BitVec.ofNat 64 h.next⟩)) } ∧
      t.cursor.toNat = h.next ∧ s.cursor.toNat < t.cursor.toNat ∧ t.cursor.toNat ≤ t.buflen.toNat) ∧
    (∀ e, decodeOne intCodec s.buf s.cursor.toNat = .error e → exec .next s = .next { s with
      kind := .error
      err := some e
      halt := true
      result := none
      reply := some (.response (.error e)) })

/-- R176: `NEXT` with `CURSOR > BUFLEN` halts with `MalformedInteger(Type)`. -/
def Obligations.NextBeyondTheEndHalts : Prop :=
  ∀ s : State, s.halt = false → s.buflen < s.cursor →
    exec .next s = .next (failed .scan (.malformedInteger .type) s)

/-- R157, R158, R249: `DECODE_AT off` completes for every offset in every state; `CURSOR` and `HALT` are not touched. -/
def Obligations.DecodeAtReportsTheRecordOrTheError : Prop :=
  ∀ (s : State) (off : Offset),
    (∀ h, decodeOne intCodec s.buf off.toNat = .ok h → exec (.decodeAt off) s = .next { s with
      kind := .record
      err := none
      result := some ⟨h.type, h.length, BitVec.ofNat 64 h.vstart, BitVec.ofNat 64 h.next⟩
      reply := some (.response (.record
        ⟨h.type, h.length, BitVec.ofNat 64 h.vstart, BitVec.ofNat 64 h.next⟩)) }) ∧
    (∀ e, decodeOne intCodec s.buf off.toNat = .error e → exec (.decodeAt off) s = .next { s with
      kind := .error
      err := some e
      result := none
      reply := some (.response (.error e)) })

/-- R158: `DECODE_AT` neither reads nor writes `CURSOR` or `HALT`.  Issued to a running scanner, `DECODE_AT` leaves the scan exactly where it was: the next `NEXT` gives the same
state; issued while halted, the scan stays halted at the same `CURSOR`. -/
def Obligations.DecodeAtIsOutsideTheScan : Prop :=
  ∀ (s t : State) (off : Offset), exec (.decodeAt off) s = .next t →
    t.cursor = s.cursor ∧ t.halt = s.halt ∧
    (∀ cursor halt, exec (.decodeAt off) { s with cursor := cursor, halt := halt } =
      .next { t with cursor := cursor, halt := halt }) ∧
    (s.halt = false → exec .next t = exec .next s) ∧
    (s.halt = true → exec .next t = .next { t with reply := some (.response .halted) })

/-- R220: `ENCODE_RECORD` answers the encoding or `LengthMismatch` and touches no register; with a value of `2^64` bytes
or more it is outside its operands (log 13).  That the answer is handed over in `reply` is the model's choice (log 12). -/
def Obligations.EncodeRecordAnswersAndTouchesNoRegister : Prop :=
  ∀ (type : Word) (value : List Byte) (s : State),
    (value.length < 2 ^ 64 → type.toNat < 128 → value.length = 2 ^ (type.toNat / 8) →
      exec (.encodeRecord type value) s =
        .next { s with reply := some (.encoded (intCodec.enc type ++ value)) }) ∧
    (value.length < 2 ^ 64 → type.toNat < 128 → value.length ≠ 2 ^ (type.toNat / 8) →
      exec (.encodeRecord type value) s = .next { s with reply := some (.encodeError .lengthMismatch) }) ∧
    (value.length < 2 ^ 64 → 128 ≤ type.toNat →
      exec (.encodeRecord type value) s = .next { s with
        reply := some (.encoded (intCodec.enc type ++ intCodec.enc (BitVec.ofNat 64 value.length) ++ value)) }) ∧
    (2 ^ 64 ≤ value.length → exec (.encodeRecord type value) s = .refused .valueLengthNotExpressible)

/-! ## Registers -/

/-- R26, R27, R28, R30: the fields of `STATUS`, its bit 7, and the codes the block can show. -/
def Obligations.StatusWordLayout : Prop :=
  ∀ s : State,
    s.statusWord.extractLsb' 0 2 = (match s.kind with | .none => 0 | .record => 1 | .atEnd => 2 | .error => 3) ∧
    s.statusWord.extractLsb' 2 3 = (match s.err with
      | none => 0
      | some (.malformedInteger .type) => 1
      | some (.malformedInteger .length) => 2
      | some .truncatedValue => 3) ∧
    s.statusWord.getLsbD 5 = s.halt ∧ s.statusWord.getLsbD 7 = false ∧
    (s.kind ≠ .record → s.statusWord.getLsbD 6 = false) ∧
    (∀ r, s.kind = .record → s.result = some r → s.statusWord.getLsbD 6 = decide (128 ≤ r.rType.toNat))

/-- R21, R205, R206: what a register read hands over, by number; it changes nothing of the spec's state.  A result
register without value gives some value, which one is open (R33), and every read completes. -/
def Obligations.RegisterReadsGiveTheRegisters : Prop :=
  ∀ (s : State) (rest : List HostEvent) (n : Nat), ∃ v k,
    step { s with inbox := .read n :: rest } =
      .next { s with inbox := rest, reply := some v, freeCount := k } ∧
    (n = 0 → v = .value (s.cursor.setWidth 64)) ∧ (n = 1 → v = .value (s.buflen.setWidth 64)) ∧
    (n = 2 → v = .value (s.statusWord.setWidth 64)) ∧
    (∀ r, s.kind = .record → s.result = some r →
      (n = 3 → v = .value r.rType) ∧ (n = 4 → v = .value r.rLength) ∧
      (n = 5 → v = .value (r.rVstart.setWidth 64)) ∧ (n = 6 → v = .value (r.rNext.setWidth 64))) ∧
    (n ≤ 6 → ∃ x, v = .value x) ∧ (6 < n → v = .response .refused)

/-- R93: a response of code 0 to 3 equals the `STATUS.KIND` code the command leaves behind. -/
def Obligations.ResponseCodesMatchTheKindLeftBehind : Prop :=
  ∀ (i : Instr) (s t : State) (r : Response), (∃ c, i.commandWord = some c) → exec i s = .next t →
    t.reply = some (.response r) → r.code ≤ 3 → t.kind.code.toNat = r.code

/-- R240: which cause gives which error code, told by `DECODE_AT`. -/
def Obligations.ErrorCausesAndCodes : Prop :=
  ∀ (s t : State) (off : Offset), exec (.decodeAt off) s = .next t →
    (t.errCode = 1 ↔ intCodec.dec s.buf off.toNat = none) ∧
    (t.errCode = 2 ↔ ∃ type n1, intCodec.dec s.buf off.toNat = some (type, n1) ∧ 128 ≤ type.toNat ∧
      intCodec.dec s.buf (off.toNat + n1) = none) ∧
    (t.errCode = 3 ↔ ∃ type n1 headerEnd length, intCodec.dec s.buf off.toNat = some (type, n1) ∧
      ((type.toNat < 128 ∧ headerEnd = off.toNat + n1 ∧ length = 2 ^ (type.toNat / 8)) ∨
       (128 ≤ type.toNat ∧ ∃ l n2, intCodec.dec s.buf (off.toNat + n1) = some (l, n2) ∧
          headerEnd = off.toNat + n1 + n2 ∧ length = l.toNat)) ∧
      s.buf.len < headerEnd + length) ∧
    (t.errCode = 0 ↔ t.kind = .record)

/-! ## Reset -/

/-- R39: every piece of state after reset, and what the first commands then answer. -/
def Obligations.ResetStateIsTheSpecs : Prop :=
  State.reset.cursor = 0 ∧ State.reset.buflen = 0 ∧ State.reset.kind = .none ∧ State.reset.err = none ∧
  State.reset.halt = false ∧ State.reset.expl = false ∧ State.reset.statusWord = 0 ∧ State.reset.result = none ∧
  State.reset.buf.len = 0 ∧
  (∃ t, exec .next State.reset = .next t ∧ t.reply = some (.response .atEnd)) ∧
  (∃ t, exec (.decodeAt 0) State.reset = .next t ∧
    t.reply = some (.response (.error (.malformedInteger .type))))

/-- R280, R281: reset from any state, in one step; the memory is not touched.  That reset is an event of the host's inbox
that takes a step of the model, and that the later actions of the inbox remain, is the model's choice (log 8). -/
def Obligations.ResetClearsTheStateAndKeepsTheMemory : Prop :=
  ∀ (s : State) (rest : List HostEvent), ∃ t, step { s with inbox := .reset :: rest } = .next t ∧
    t.cursor = 0 ∧ t.buflen = 0 ∧ t.statusWord = 0 ∧ t.kind = .none ∧ t.err = none ∧ t.halt = false ∧
    t.result = none ∧ t.mem = s.mem ∧ t.inbox = rest

/-- R282: behaviour right after reset, by the ordinary rules. -/
def Obligations.BehaviourRightAfterReset : Prop :=
  ∀ s : State,
    (∃ t, exec .next s.afterReset = .next t ∧ t.reply = some (.response .atEnd)) ∧
    (∀ off, ∃ t, exec (.decodeAt off) s.afterReset = .next t ∧
      t.reply = some (.response (.error (.malformedInteger .type)))) ∧
    (∀ off, ∃ t, exec (.seek off) s.afterReset = .next t ∧ t.reply = some (.response .ok)) ∧
    (∃ t, step { s.afterReset with inbox := [.read 2] } = .next t ∧ t.reply = some (.value 0))

/-! ## The whole machine -/

/-- R200: with nothing asked of it the block does nothing. -/
def Obligations.IdleBlockDoesNothing : Prop := ∀ s : State, s.inbox = [] → step s = .next s

/-- A step runs the decoded instruction: the command at the head of the inbox is taken and, when it decodes to `i`, `i`
runs on the state without it (R200). -/
def Obligations.StepRunsTheDecodedCommand : Prop :=
  ∀ (s : State) (c : Command) (rest : List HostEvent) (i : Instr), decode (.command c) = .ok i →
    step { s with inbox := .command c :: rest } = exec i { s with inbox := rest }

/-- R207, R252: every step of an expressible action completes: no fault exists, and only a `BIND` outside the width is
refused. -/
def Obligations.EveryStepCompletes : Prop :=
  ∀ s : State, (∀ c, s.inbox.head? = some (.command c) → c.data.length < 2 ^ 64) → ∃ t, step s = .next t

/-- The invariant holds at reset. -/
def Obligations.ResetMeetsTheInvariant : Prop := Inv State.reset

/-- The invariant is kept by every step, from every state that has it. -/
def Obligations.EveryStepKeepsTheInvariant : Prop := ∀ s t : State, Inv s → step s = .next t → Inv t

/-- R34: the invariants of a valid result. -/
def Obligations.ValidResultBounds : Prop :=
  ∀ s : State, Inv s → s.kind = .record → ∃ r off n1, s.result = some r ∧
    off < r.rVstart.toNat ∧ r.rVstart.toNat ≤ r.rNext.toNat ∧ r.rNext.toNat ≤ s.buflen.toNat ∧
    r.rNext.toNat = r.rVstart.toNat + r.rLength.toNat ∧ r.rLength.toNat ≤ s.buflen.toNat ∧
    (r.rType.toNat < 128 → r.rLength.toNat = 2 ^ (r.rType.toNat / 8)) ∧
    intCodec.dec s.buf off = some (r.rType, n1) ∧
    (r.rType.toNat < 128 → r.rVstart.toNat - off = n1) ∧
    (128 ≤ r.rType.toNat → ∃ n2, intCodec.dec s.buf (off + n1) = some (r.rLength, n2) ∧
      r.rVstart.toNat - off = n1 + n2)

/-- R24: `CURSOR <= BUFLEN` is kept by every step that is no `SEEK` beyond the end. -/
def Obligations.CursorStaysInsideWithoutASeekBeyond : Prop :=
  ∀ s t : State, s.cursor ≤ s.buflen → step s = .next t →
    (∀ c, s.inbox.head? = some (.command c) → c.code = 0x02 → c.off ≤ s.buflen) → t.cursor ≤ t.buflen

/-- R29: `HALT` is set by a failing `NEXT` and by nothing else; it is cleared by reset, `BIND` and `SEEK` and by nothing
else; while it is 1, `NEXT` yields nothing; `DECODE_AT` neither reads nor writes it. -/
def Obligations.HaltIsSetAndClearedOnlyAsStated : Prop :=
  (∀ s t : State, step s = .next t → s.halt = false → t.halt = true →
    (∃ c, s.inbox.head? = some (.command c) ∧ c.code = 0x03) ∧ t.kind = .error) ∧
  (∀ s t : State, step s = .next t → s.halt = true → t.halt = false →
    s.inbox.head? = some .reset ∨
    ∃ c, s.inbox.head? = some (.command c) ∧ (c.code = 0x01 ∨ c.code = 0x02)) ∧
  (∀ (s : State) (e : DecodeError), s.halt = false → s.cursor ≠ s.buflen →
    decodeOne intCodec s.buf s.cursor.toNat = .error e → ∃ t, exec .next s = .next t ∧ t.halt = true) ∧
  (∀ s t : State, step s = .next t → (s.inbox.head? = some .reset ∨
    ∃ c, s.inbox.head? = some (.command c) ∧ (c.code = 0x01 ∨ c.code = 0x02)) → t.halt = false) ∧
  (∀ s : State, s.halt = true → exec .next s = .next { s with reply := some (.response .halted) }) ∧
  (∀ (s t : State) (off : Offset) (b : Bool), exec (.decodeAt off) s = .next t →
    t.halt = s.halt ∧ exec (.decodeAt off) { s with halt := b } = .next { t with halt := b })

/-- R53, R25, R40: the buffer is written by `BIND` only, `BUFLEN` by `BIND` and reset only.  That a `BIND` keeps no byte
beyond the new buffer's end, where the spec gives none, is the model's choice (logs 4, 5). -/
def Obligations.OnlyBindChangesTheBuffer : Prop :=
  ∀ s t : State, step s = .next t →
    ((∃ c, s.inbox.head? = some (.command c) ∧ c.code = 0x01) ∨ t.mem = s.mem) ∧
    ((∃ c, s.inbox.head? = some (.command c) ∧ c.code = 0x01) ∨ s.inbox.head? = some .reset ∨
      t.buflen = s.buflen) ∧
    (∀ c, s.inbox.head? = some (.command c) → c.code = 0x01 →
      ∀ a, c.data.length ≤ a → Memory.read t.mem a = Config.unlistedByte)

/-- R40: the frames of the instructions that decode and of `SEEK` and `ENCODE_RECORD`: no byte of the buffer changes; a
decode outside the scan (`DECODE_AT`, or a record at its site) keeps `CURSOR` and `HALT`; a decode in the scan keeps
`CURSOR` when it fails and `HALT` when it does not. -/
def Obligations.FramesOfDecodesAndOfSeek : Prop :=
  ∀ (i : Instr) (s t : State), (∀ b, i ≠ .bind b) → exec i s = .next t →
    KeepsBuffer s t ∧
    (∀ type value, i = .encodeRecord type value →
      t.cursor = s.cursor ∧ t.kind = s.kind ∧ t.err = s.err ∧ t.halt = s.halt ∧ t.result = s.result) ∧
    (∀ off, i = .decodeAt off → t.cursor = s.cursor ∧ t.halt = s.halt) ∧
    (∀ off type, i.wireType = some (.peek off, type) → t.cursor = s.cursor ∧ t.halt = s.halt) ∧
    (∀ type, i = .next ∨ i.wireType = some (.scan, type) →
      (t.cursor ≠ s.cursor → t.kind = .record) ∧ (t.halt ≠ s.halt → t.kind = .error ∧ t.halt = true))

/-- R37: what `NEXT` answers and leaves depends on `BUF`, `BUFLEN`, `CURSOR` and `HALT` only; what `DECODE_AT off`
answers on `BUF`, `BUFLEN` and `off` only. -/
def Obligations.NoHiddenState : Prop :=
  (∀ s s' t t' : State, SameScan s s' → exec .next s = .next t → exec .next s' = .next t' →
    t.reply = t'.reply ∧ SameScan t t' ∧
    (s.halt = false → t.kind = t'.kind ∧ t.err = t'.err ∧ t.result = t'.result)) ∧
  (∀ (s s' t t' : State) (off : Offset), SameBytes s.buf s'.buf → exec (.decodeAt off) s = .next t →
    exec (.decodeAt off) s' = .next t' →
    t.reply = t'.reply ∧ t.kind = t'.kind ∧ t.err = t'.err ∧ t.result = t'.result)

/-- R183, R251: a malformed record fails the same way on every visit: a halted scanner sent back to its `CURSOR` halts
there again. -/
def Obligations.HaltedRecordFailsOnEveryVisit : Prop :=
  ∀ s : State, Inv s → s.halt = true → ∃ t u, exec (.seek s.cursor) s = .next t ∧ exec .next t = .next u ∧
    u.halt = true ∧ u.kind = .error ∧ u.cursor = s.cursor ∧
    ∃ e, decodeOne intCodec s.buf s.cursor.toNat = .error e ∧ u.err = some e ∧
      u.reply = some (.response (.error e))

/-- R259: every interleaving of the steps of several instances gives each instance the steps it would take alone. -/
def Obligations.InstancesAreIndependent : Prop :=
  ∀ (schedule : List Nat) (ss ss' : List State), runSchedule schedule ss = .next ss' →
    ss'.length = ss.length ∧
    ∀ k s, ss[k]? = some s → ∃ s', ss'[k]? = some s' ∧ stepTimes (schedule.count k) s = .next s'

/-! ## The scan as a function -/

/-- R181: `ScanFrom` is total for every conforming codec and satisfies its defining equations. -/
def Obligations.ScanFromIsTotalAndMeetsItsEquations : Prop :=
  ∀ C : IntCodec, C.Conforms → ∀ (B : ByteSeq) (off : Nat),
    (off = B.len → scanFrom C B off = some ([], .done)) ∧
    (off ≠ B.len → ∀ e, decodeOne C B off = .error e → scanFrom C B off = some ([], .failed e off)) ∧
    (off ≠ B.len → ∀ h, decodeOne C B off = .ok h → ∃ hs t, scanFrom C B h.next = some (hs, t) ∧
      scanFrom C B off = some (h :: hs, t))

/-- R181: the machine's `NEXT`s yield exactly `ScanFrom`: one item per `NEXT`, then `END` or the error with `CURSOR` at
the failing record, from every state whose scanner is not halted. -/
def Obligations.NextsYieldTheScan : Prop :=
  ∀ s : State, s.halt = false →
    (∀ h hs t, scanFrom intCodec s.buf s.cursor.toNat = some (h :: hs, t) → ∃ s', exec .next s = .next s' ∧
      s'.reply = some (.response (.record h.toResult)) ∧ s'.halt = false ∧ s'.buf = s.buf ∧
      scanFrom intCodec s'.buf s'.cursor.toNat = some (hs, t)) ∧
    (scanFrom intCodec s.buf s.cursor.toNat = some ([], .done) → ∃ s', exec .next s = .next s' ∧
      s'.reply = some (.response .atEnd) ∧ exec .next s' = .next s') ∧
    (∀ e off, scanFrom intCodec s.buf s.cursor.toNat = some ([], .failed e off) → ∃ s', exec .next s = .next s' ∧
      s'.reply = some (.response (.error e)) ∧ s'.cursor.toNat = off ∧ s'.halt = true ∧
      ∃ s'', exec .next s' = .next s'' ∧ s''.reply = some (.response .halted))

/-- R184: skipping without understanding.  The scan of the encodings of `N` records yields exactly `N` headers, with
their types and values, each record decoded where the one before it ends, and reaches the end. -/
def Obligations.ScanSkipsWithoutUnderstanding : Prop :=
  ∀ C : IntCodec, C.Conforms → ∀ (records : List (Word × List Byte)) (b : List Byte),
    (∀ r ∈ records, r.2.length < 2 ^ 64) → encodeStream C records = .ok b →
    ∃ hs, scan C (.ofList b) = some (hs, .done) ∧ hs.length = records.length ∧
      (∀ k (h : k < hs.length) (h' : k < records.length), hs[k].type = records[k].1 ∧
        hs[k].length.toNat = records[k].2.length ∧
        (ByteSeq.ofList b).slice hs[k].vstart hs[k].next = records[k].2 ∧
        decodeOne C (.ofList b) (if k = 0 then 0 else (hs[k - 1]?.map Header.next).getD 0) = .ok hs[k]) ∧
      (∀ h, hs.getLast? = some h → h.next = b.length)

/-- R185: appending bytes never changes the records a scan has already yielded. -/
def Obligations.AppendedBytesKeepTheGoodPrefix : Prop :=
  ∀ C : IntCodec, C.Conforms → ∀ (b tail : List Byte) (hs : List Header) (t : Terminal),
    scan C (.ofList b) = some (hs, t) → ∃ more t', scan C (.ofList (b ++ tail)) = some (hs ++ more, t')
end

