-- ==== Sys2Proof/Laws/Codec.lean ====
section
/-! SUPPORT. The Integer Codec: byte sequences, big-endian numbers, one spec lemma for `varDec`, and that the machine's
codec meets the contract (R122). -/

namespace Sys2Proof

/-! ## Byte sequences -/

@[simp] theorem ByteSeq.ofList_len (l : List Byte) : (ByteSeq.ofList l).len = l.length := rfl
@[simp] theorem ByteSeq.dropTo_len (B : ByteSeq) (off : Nat) : (B.dropTo off).len = B.len - off := rfl
@[simp] theorem ByteSeq.dropTo_byte (B : ByteSeq) (off i : Nat) : (B.dropTo off).byte i = B.byte (off + i) := rfl
@[simp] theorem ByteSeq.slice_length (B : ByteSeq) (a b : Nat) : (B.slice a b).length = b - a := by simp [slice]

theorem ByteSeq.ofList_byte (l : List Byte) (i : Nat) (h : i < l.length) : (ByteSeq.ofList l).byte i = l[i] := by
  simp [ofList, List.getD, h]

/-- A slice is its bytes. -/
theorem ByteSeq.slice_eq_iff (B : ByteSeq) (a : Nat) (l : List Byte) :
    B.slice a (a + l.length) = l ↔ ∀ i (h : i < l.length), B.byte (a + i) = l[i] := by
  constructor
  · intro h i hi
    have := congrArg (fun x => x[i]?) h
    simpa [slice, hi] using this
  · intro h
    apply List.ext_getElem
    · simp
    · intro i h1 h2
      simpa [slice] using h i h2

theorem ByteSeq.slice_cons (B : ByteSeq) (a b : Nat) (h : a < b) : B.slice a b = B.byte a :: B.slice (a + 1) b := by
  obtain ⟨k, rfl⟩ : ∃ k, b = a + (k + 1) := ⟨b - a - 1, by omega⟩
  have h1 : a + (k + 1) - a = k + 1 := by omega
  have h2 : a + (k + 1) - (a + 1) = k := by omega
  simp [slice, h1, h2, List.range_succ_eq_map, Function.comp_def, Nat.add_assoc, Nat.add_comm 1]

theorem ByteSeq.slice_congr (B B' : ByteSeq) (a b : Nat) (h : ∀ i, a ≤ i → i < b → B.byte i = B'.byte i) :
    B.slice a b = B'.slice a b := by
  unfold slice
  refine List.map_congr_left fun i hi => h _ (by omega) ?_
  have := List.mem_range.1 hi
  omega

theorem ByteSeq.slice_dropTo (B : ByteSeq) (off a b : Nat) :
    (B.dropTo off).slice a b = B.slice (off + a) (off + b) := by
  have h : off + b - (off + a) = b - a := by omega
  simp [slice, h, Nat.add_assoc]

/-- What `HasAt` says, byte by byte. -/
theorem ByteSeq.hasAt_iff (B : ByteSeq) (off : Nat) (l : List Byte) :
    B.HasAt off l ↔ off + l.length ≤ B.len ∧ ∀ i (h : i < l.length), B.byte (off + i) = l[i] := by
  rw [HasAt, slice_eq_iff]

theorem ByteSeq.hasAt_ofList_append (p l q : List Byte) : (ByteSeq.ofList (p ++ l ++ q)).HasAt p.length l := by
  rw [hasAt_iff]
  refine ⟨by simp, fun i h => ?_⟩
  rw [ofList_byte _ _ (by simp; omega)]
  simp [h]

theorem ByteSeq.hasAt_append_iff (B : ByteSeq) (off : Nat) (l m : List Byte) :
    B.HasAt off (l ++ m) ↔ B.HasAt off l ∧ B.HasAt (off + l.length) m := by
  simp only [hasAt_iff, List.length_append]
  constructor
  · rintro ⟨h1, h2⟩
    refine ⟨⟨by omega, fun i h => ?_⟩, by omega, fun i h => ?_⟩
    · have := h2 i (by omega)
      rwa [List.getElem_append_left h] at this
    · have := h2 (l.length + i) (by omega)
      rw [List.getElem_append_right (by omega)] at this
      simpa [Nat.add_assoc] using this
  · rintro ⟨⟨h1, h2⟩, h3, h4⟩
    refine ⟨by omega, fun i h => ?_⟩
    by_cases hi : i < l.length
    · rw [List.getElem_append_left hi]; exact h2 i hi
    · rw [List.getElem_append_right (by omega)]
      have := h4 (i - l.length) (by omega)
      rwa [show off + l.length + (i - l.length) = off + i by omega] at this

theorem ByteSeq.hasAt_dropTo (B : ByteSeq) (off : Nat) (l : List Byte) (h : off ≤ B.len) :
    (B.dropTo off).HasAt 0 l ↔ B.HasAt off l := by
  simp only [hasAt_iff, dropTo_len, dropTo_byte, Nat.zero_add]
  constructor
  · rintro ⟨h1, h2⟩; exact ⟨by omega, h2⟩
  · rintro ⟨h1, h2⟩; exact ⟨by omega, h2⟩

/-- Two encodings at one place: the shorter is a prefix of the longer. -/
theorem ByteSeq.HasAt.isPrefix {B : ByteSeq} {off : Nat} {l m : List Byte} (hl : B.HasAt off l) (hm : B.HasAt off m)
    (h : l.length ≤ m.length) : l <+: m := by
  rw [hasAt_iff] at hl hm
  rw [List.prefix_iff_eq_take]
  apply List.ext_getElem
  · simp [h]
  · intro i h1 h2
    rw [List.getElem_take, ← hl.2 i h1, ← hm.2 i (by omega)]

/-! ## Big-endian numbers -/

@[simp] theorem bigEndian_length (k n : Nat) : (bigEndian k n).length = k := by
  induction k with
  | zero => rfl
  | succ k ih => simp [bigEndian, ih]

theorem bigEndianValue_lt (l : List Byte) : bigEndianValue l < 2 ^ (8 * l.length) := by
  induction l with
  | nil => simp [bigEndianValue]
  | cons b l ih =>
    have hb := b.isLt
    simp only [bigEndianValue, List.length_cons]
    rw [Nat.mul_succ, Nat.pow_add]
    generalize 2 ^ (8 * l.length) = p at *
    nlinarith

theorem bigEndian_add_mul (k x v : Nat) : bigEndian k (x * 2 ^ (8 * k) + v) = bigEndian k v := by
  induction k generalizing x with
  | zero => rfl
  | succ k ih =>
    have h1 : x * 2 ^ (8 * (k + 1)) = (x * 256) * 2 ^ (8 * k) := by rw [Nat.mul_succ, Nat.pow_add]; ring
    rw [h1]
    simp only [bigEndian]
    rw [ih, Nat.add_comm, Nat.add_mul_div_right _ _ (Nat.two_pow_pos _)]
    generalize v / 2 ^ (8 * k) = q
    congr 1
    apply BitVec.eq_of_toNat_eq
    simp only [BitVec.toNat_ofNat]
    omega

/-- Writing out a big-endian number gives its bytes back. -/
theorem bigEndian_value (l : List Byte) : bigEndian l.length (bigEndianValue l) = l := by
  induction l with
  | nil => rfl
  | cons b l ih =>
    have hv := bigEndianValue_lt l
    simp only [bigEndianValue, List.length_cons, bigEndian]
    rw [bigEndian_add_mul, ih, Nat.add_comm, Nat.add_mul_div_right _ _ (Nat.two_pow_pos _), Nat.div_eq_of_lt hv]
    simp

/-- Reading the bytes of a number gives the number, modulo what they can hold. -/
theorem bigEndianValue_bigEndian (k n : Nat) : bigEndianValue (bigEndian k n) = n % 2 ^ (8 * k) := by
  induction k with
  | zero => simp [bigEndian, bigEndianValue, Nat.mod_one]
  | succ k ih =>
    simp only [bigEndian, bigEndianValue, bigEndian_length, ih, BitVec.toNat_ofNat]
    rw [Nat.mul_succ, Nat.pow_add, Nat.mod_mul]
    ring

/-! ## `VARU64-REF` -/

/-- The payload size of a number is in 1..8, fits it, and is the least that does (R120). -/
theorem varPayloadSize_spec (n : Nat) (h : n < 2 ^ 64) :
    1 ≤ varPayloadSize n ∧ varPayloadSize n ≤ 8 ∧ n < 2 ^ (8 * varPayloadSize n) ∧
      (varPayloadSize n = 1 ∨ 2 ^ (8 * (varPayloadSize n - 1)) ≤ n) := by
  unfold varPayloadSize
  split_ifs <;> norm_num at * <;> omega

theorem varPayloadSize_unique (n k : Nat) (h1 : 1 ≤ k) (h8 : k ≤ 8) (hn : n < 2 ^ (8 * k))
    (hm : k = 1 ∨ 2 ^ (8 * (k - 1)) ≤ n) : varPayloadSize n = k := by
  unfold varPayloadSize
  interval_cases k <;> simp at hn hm <;> split_ifs <;> omega

theorem varEnc_length (n : Word) :
    (varEnc n).length = if n.toNat < 248 then 1 else 1 + varPayloadSize n.toNat := by
  unfold varEnc
  split_ifs <;> simp; omega

/-- The bytes of a scalar of two bytes or more (R120). -/
theorem varEnc_of_ge (n : Word) (h : ¬ n.toNat < 248) :
    varEnc n = BitVec.ofNat 8 (247 + varPayloadSize n.toNat) :: bigEndian (varPayloadSize n.toNat) n.toNat := by
  simp [varEnc, h]

theorem ByteSeq.hasAt_cons_iff (B : ByteSeq) (off : Nat) (b : Byte) (l : List Byte) :
    B.HasAt off (b :: l) ↔ off < B.len ∧ B.byte off = b ∧ B.HasAt (off + 1) l := by
  rw [show b :: l = [b] ++ l from rfl, hasAt_append_iff, hasAt_iff B off [b]]
  simp [and_assoc]

/-- The one spec lemma of `varDec`: it answers `Ok(n, c)` exactly where `IntEnc(n)` stands, `c` its length. -/
theorem varDec_eq_some_iff (B : ByteSeq) (off : Nat) (n : Word) (c : Nat) :
    varDec B off = some (n, c) ↔ c = (varEnc n).length ∧ B.HasAt off (varEnc n) := by
  have hlt := n.isLt
  by_cases h248 : n.toNat < 248
  · have henc : varEnc n = [BitVec.ofNat 8 n.toNat] := by simp [varEnc, h248]
    rw [henc, ByteSeq.hasAt_cons_iff]
    simp only [List.length_singleton]
    constructor
    · intro h
      unfold varDec varDecPayload at h
      split at h
      · cases h
      · split at h
        · rename_i h1 h2
          simp only [Option.some.injEq, Prod.mk.injEq] at h
          refine ⟨h.2.symm, by omega, ?_, ?_⟩
          · rw [← h.1]; apply BitVec.eq_of_toNat_eq; simp; omega
          · simp [ByteSeq.HasAt, ByteSeq.slice]; omega
        · rename_i h1 h2
          have hb := (B.byte off).isLt
          simp only at h
          split at h
          · cases h
          · split at h
            · cases h
            · split at h
              · cases h
              · exfalso
                rename_i h3 h4 h5
                simp only [Option.some.injEq, Prod.mk.injEq] at h
                obtain ⟨rfl, -⟩ := h
                have hv := bigEndianValue_lt (B.slice (off + 1) (off + 1 + ((B.byte off).toNat - 247)))
                simp only [ByteSeq.slice_length, Nat.add_sub_cancel_left] at hv
                generalize bigEndianValue _ = v at *
                have h64 : v < 2 ^ 64 := lt_of_lt_of_le hv (Nat.pow_le_pow_right (by omega) (by omega))
                have hnat : (BitVec.ofNat 64 v).toNat = v := by rw [BitVec.toNat_ofNat, Nat.mod_eq_of_lt h64]
                rw [hnat] at h248
                rcases Nat.lt_or_ge 1 ((B.byte off).toNat - 247) with hk | hk
                · have hp : 2 ^ 8 ≤ 2 ^ (8 * ((B.byte off).toNat - 247 - 1)) :=
                    Nat.pow_le_pow_right (n := 2) (by decide) (by omega)
                  refine h5 ⟨hk, lt_of_lt_of_le (lt_trans h248 ?_) hp⟩
                  norm_num
                · exact h4 ⟨by omega, h248⟩
    · rintro ⟨rfl, h1, h2, -⟩
      have h3 : (B.byte off).toNat = n.toNat := by rw [h2]; simp; omega
      unfold varDec
      rw [if_neg (by omega), if_pos (by omega), h3]
      simp
  · obtain ⟨k1, k8, kn, km⟩ := varPayloadSize_spec n.toNat hlt
    rw [varEnc_of_ge n h248, ByteSeq.hasAt_cons_iff]
    simp only [List.length_cons, bigEndian_length]
    constructor
    · intro h
      unfold varDec at h
      split at h
      · cases h
      · split at h
        · rename_i h1 h2
          simp only [Option.some.injEq, Prod.mk.injEq] at h
          exfalso
          apply h248
          rw [← h.1, BitVec.toNat_ofNat]
          exact lt_of_le_of_lt (Nat.mod_le _ _) h2
        · rename_i h1 h2
          have hb := (B.byte off).isLt
          unfold varDecPayload at h
          simp only at h
          split at h
          · cases h
          · split at h
            · cases h
            · split at h
              · cases h
              · rename_i h3 h4 h5
                simp only [Option.some.injEq, Prod.mk.injEq] at h
                obtain ⟨hn, hc⟩ := h
                have hv := bigEndianValue_lt (B.slice (off + 1) (off + 1 + ((B.byte off).toNat - 247)))
                have hbe := bigEndian_value (B.slice (off + 1) (off + 1 + ((B.byte off).toNat - 247)))
                simp only [ByteSeq.slice_length, Nat.add_sub_cancel_left] at hv hbe
                generalize hvdef : bigEndianValue _ = v at *
                have h64 : v < 2 ^ 64 := lt_of_lt_of_le hv (Nat.pow_le_pow_right (by omega) (by omega))
                have hnv : n.toNat = v := by rw [← hn, BitVec.toNat_ofNat, Nat.mod_eq_of_lt h64]
                have hk : varPayloadSize n.toNat = (B.byte off).toNat - 247 := by
                  rw [hnv]
                  refine varPayloadSize_unique v _ (by omega) (by omega) hv ?_
                  by_cases hk1 : (B.byte off).toNat - 247 = 1
                  · exact .inl hk1
                  · exact .inr (Nat.le_of_not_lt fun hlt' => h5 ⟨by omega, hlt'⟩)
                refine ⟨by omega, by omega, ?_, ?_, ?_⟩
                · rw [hk]; apply BitVec.eq_of_toNat_eq; simp; omega
                · rw [bigEndian_length]; omega
                · rw [bigEndian_length, hk, hnv, hbe]
    · rintro ⟨rfl, h1, h2, h3⟩
      have hb : (B.byte off).toNat = 247 + varPayloadSize n.toNat := by rw [h2]; simp; omega
      obtain ⟨h4, h5⟩ := h3
      rw [bigEndian_length] at h4 h5
      unfold varDec
      rw [if_neg (by omega), if_neg (by omega), hb, Nat.add_sub_cancel_left]
      unfold varDecPayload
      simp only [h5, bigEndianValue_bigEndian, Nat.mod_eq_of_lt kn]
      rw [if_neg (by omega), if_neg (by omega), if_neg (by omega)]
      simp [Nat.add_comm]

theorem varEnc_ne_nil (n : Word) : varEnc n ≠ [] := by
  unfold varEnc; split_ifs <;> simp

/-! ## From the one-line law to the contract -/

/-- A codec whose encodings are not empty and whose decode answers `Ok(n, c)` exactly where `IntEnc(n)` stands meets the
contract. -/
theorem IntCodec.conforms_of_line (C : IntCodec) (hne : ∀ n, C.enc n ≠ [])
    (h : ∀ B off n c, C.dec B off = some (n, c) ↔ c = (C.enc n).length ∧ B.HasAt off (C.enc n)) : C.Conforms := by
  have hpos : ∀ n, 0 < (C.enc n).length := fun n => List.length_pos_iff.2 (hne n)
  refine ⟨?_, ?_, ?_, ?_, ?_, ?_, ?_⟩
  · intro n
    rw [h]
    exact ⟨rfl, by simpa using ByteSeq.hasAt_ofList_append [] (C.enc n) []⟩
  · intro B off hoff
    apply Option.ext
    rintro ⟨n, c⟩
    rw [h, h, ByteSeq.hasAt_dropTo B off _ hoff]
  · intro S S' n c hS hlen hbytes
    rw [h] at hS ⊢
    refine ⟨hS.1, ?_⟩
    obtain ⟨rfl, hS⟩ := hS
    rw [ByteSeq.hasAt_iff] at hS ⊢
    refine ⟨by omega, fun i hi => ?_⟩
    rw [← hS.2 i hi, Nat.zero_add, hbytes i hi]
  · intro B off n c hd
    obtain ⟨rfl, hat⟩ := (h ..).1 hd
    exact hat.2
  · intro B off n c hd
    obtain ⟨rfl, hat⟩ := (h ..).1 hd
    exact ⟨hpos n, hat.1⟩
  · intro B off hoff
    rw [Option.eq_none_iff_forall_ne_some]
    rintro ⟨n, c⟩ hd
    obtain ⟨rfl, hat⟩ := (h ..).1 hd
    have := hpos n
    have := hat.1
    omega
  · intro B B' off hlen hbytes
    apply Option.ext
    rintro ⟨n, c⟩
    rw [h, h, ByteSeq.hasAt_iff, ByteSeq.hasAt_iff, hlen]
    refine and_congr_right fun _ => and_congr_right fun hin => ?_
    refine forall_congr' fun i => forall_congr' fun hi => ?_
    rw [hbytes (off + i) (by omega) (by omega)]

/-- R122: `VARU64-REF`, the machine's codec, meets the contract. -/
theorem intCodec_conforms : intCodec.Conforms :=
  intCodec.conforms_of_line varEnc_ne_nil varDec_eq_some_iff

/-! ## What the contract gives, one spec lemma for every conforming codec -/

variable {C : IntCodec}

/-- What a successful decode says (R114, R115). -/
theorem IntCodec.Conforms.dec_some (hC : C.Conforms) {B : ByteSeq} {off : Nat} {n : Word} {c : Nat}
    (h : C.dec B off = some (n, c)) :
    c = (C.enc n).length ∧ 1 ≤ c ∧ off + c ≤ B.len ∧ B.HasAt off (C.enc n) := by
  have h1 := hC.canonicalOnly B off n c h
  have h2 := hC.bounds B off n c h
  have h3 : c = (C.enc n).length := by rw [← h1]; simp
  subst h3
  exact ⟨rfl, h2.1, h2.2, h2.2, h1⟩

/-- Where `IntEnc(n)` stands, the decode answers it (R112, R113). -/
theorem IntCodec.Conforms.dec_of_hasAt (hC : C.Conforms) {B : ByteSeq} {off : Nat} {n : Word}
    (h : B.HasAt off (C.enc n)) : C.dec B off = some (n, (C.enc n).length) := by
  have hle : off ≤ B.len := by have := h.1; omega
  rw [hC.positionIndependent B off hle]
  rw [← ByteSeq.hasAt_dropTo B off _ hle, ByteSeq.hasAt_iff] at h
  refine hC.prefixLocal _ _ _ _ (hC.roundTrip n) (by omega) fun i hi => ?_
  rw [ByteSeq.ofList_byte _ _ hi, ← h.2 i hi, Nat.zero_add]

theorem IntCodec.Conforms.enc_pos (hC : C.Conforms) (n : Word) : 1 ≤ (C.enc n).length :=
  (hC.bounds _ _ _ _ (hC.roundTrip n)).1

end Sys2Proof
end

