-- ==== Sys2Proof/Laws/HeaderDecode.lean ====
section
/-! SUPPORT. `DecodeOne`: one lemma for what a success says, one for each error, and what makes it succeed. -/

namespace Sys2Proof.Machine

theorem impliedLength_of_lt (type : Word) (h : type.toNat < 128) :
    impliedLength type = some (2 ^ (type.toNat / 8)) := by
  simp [impliedLength, h, Nat.shiftRight_eq_div_pow, Config.classShift]

theorem impliedLength_of_ge (type : Word) (h : 128 ≤ type.toNat) : impliedLength type = none := by
  simp [impliedLength, Nat.not_lt.2 h]

/-- An implied length is at most 32768 (R6, R131), so it is exact in 64 bits. -/
theorem impliedLength_le (type : Word) (h : type.toNat < 128) : 2 ^ (type.toNat / 8) ≤ 32768 :=
  le_trans (Nat.pow_le_pow_right (by decide) (show type.toNat / 8 ≤ 15 by omega)) (by decide)

theorem toNat_ofNat_of_lt (n : Nat) (h : n < 2 ^ 64) : (BitVec.ofNat 64 n).toNat = n := by
  rw [BitVec.toNat_ofNat, Nat.mod_eq_of_lt h]

theorem impliedLength_toNat (type : Word) (h : type.toNat < 128) :
    (BitVec.ofNat 64 (2 ^ (type.toNat / 8))).toNat = 2 ^ (type.toNat / 8) :=
  toNat_ofNat_of_lt _ (lt_of_le_of_lt (impliedLength_le type h) (by norm_num))

/-- Where a header ends and the length it states: the operands of R85, read from the bytes at `off`. -/
def HeaderAt (C : IntCodec) (B : ByteSeq) (off : Nat) (type length : Word) (headerEnd : Nat) : Prop :=
  ∃ n1, C.dec B off = some (type, n1) ∧
    ((type.toNat < 128 ∧ length = BitVec.ofNat 64 (2 ^ (type.toNat / 8)) ∧ headerEnd = off + n1) ∨
     (128 ≤ type.toNat ∧ ∃ n2, C.dec B (off + n1) = some (length, n2) ∧ headerEnd = off + n1 + n2))

variable {C : IntCodec} {B : ByteSeq} {off : Nat}

/-- All `DecodeOne` can do (R130): the type field fails, the length field fails, or a header is there and the truncation
test decides. -/
theorem decodeOne_cases (C : IntCodec) (B : ByteSeq) (off : Nat) :
    (C.dec B off = none ∧ decodeOne C B off = .error (.malformedInteger .type)) ∨
    (∃ type n1, C.dec B off = some (type, n1) ∧ 128 ≤ type.toNat ∧ C.dec B (off + n1) = none ∧
      decodeOne C B off = .error (.malformedInteger .length)) ∨
    (∃ type length headerEnd, HeaderAt C B off type length headerEnd ∧
      decodeOne C B off = finishHeader B.len type length headerEnd) := by
  unfold decodeOne
  cases hd : C.dec B off with
  | none => exact .inl ⟨rfl, rfl⟩
  | some p =>
    obtain ⟨type, n1⟩ := p
    by_cases ht : type.toNat < 128
    · refine .inr (.inr ⟨type, _, off + n1, ⟨n1, hd, .inl ⟨ht, rfl, rfl⟩⟩, ?_⟩)
      simp [impliedLength_of_lt type ht]
    · have ht := Nat.le_of_not_lt ht
      cases hl : C.dec B (off + n1) with
      | none => exact .inr (.inl ⟨type, n1, rfl, ht, hl, by simp [impliedLength_of_ge type ht, hl]⟩)
      | some q =>
        obtain ⟨l, n2⟩ := q
        refine .inr (.inr ⟨type, l, off + n1 + n2, ⟨n1, hd, .inr ⟨ht, n2, hl, rfl⟩⟩, ?_⟩)
        simp [impliedLength_of_ge type ht, hl]

theorem decodeOne_of_dec_none (h : C.dec B off = none) : decodeOne C B off = .error (.malformedInteger .type) := by
  simp [decodeOne, h]

/-- A header decides the answer: only the truncation test is left. -/
theorem decodeOne_of_headerAt {type length : Word} {headerEnd : Nat} (h : HeaderAt C B off type length headerEnd) :
    decodeOne C B off = finishHeader B.len type length headerEnd := by
  obtain ⟨n1, hd, ⟨ht, rfl, rfl⟩ | ⟨ht, n2, hl, rfl⟩⟩ := h
  · simp [decodeOne, hd, impliedLength_of_lt type ht]
  · simp [decodeOne, hd, hl, impliedLength_of_ge type ht]

theorem finishHeader_ok_iff {L : Nat} {type length : Word} {he : Nat} {h : Header} :
    finishHeader L type length he = .ok h ↔
      length.toNat ≤ L - he ∧ h = ⟨type, length, he, he + length.toNat⟩ := by
  unfold finishHeader
  split_ifs with hl
  · simp; omega
  · simp [eq_comm]; omega

theorem finishHeader_error_iff {L : Nat} {type length : Word} {he : Nat} {e : DecodeError} :
    finishHeader L type length he = .error e ↔ L - he < length.toNat ∧ e = .truncatedValue := by
  unfold finishHeader
  split_ifs with hl <;> simp [eq_comm] <;> omega

/-- Every success (R130 step 5): the header that stands at `off`, and its value fits. -/
theorem decodeOne_ok {h : Header} (hd : decodeOne C B off = .ok h) :
    HeaderAt C B off h.type h.length h.vstart ∧ h.length.toNat ≤ B.len - h.vstart ∧
      h.next = h.vstart + h.length.toNat := by
  rcases decodeOne_cases C B off with ⟨-, h1⟩ | ⟨_, _, -, -, -, h1⟩ | ⟨type, length, he, hat, h1⟩
  · rw [h1] at hd; cases hd
  · rw [h1] at hd; cases hd
  · rw [h1] at hd
    obtain ⟨h2, rfl⟩ := finishHeader_ok_iff.1 hd
    exact ⟨hat, h2, rfl⟩

/-- A header is unique where it stands. -/
theorem HeaderAt.unique {t l t' l' : Word} {he he' : Nat} (h : HeaderAt C B off t l he)
    (h' : HeaderAt C B off t' l' he') : t = t' ∧ l = l' ∧ he = he' := by
  obtain ⟨n1, hd, h⟩ := h
  obtain ⟨n1', hd', h'⟩ := h'
  rw [hd] at hd'
  simp only [Option.some.injEq, Prod.mk.injEq] at hd'
  obtain ⟨rfl, rfl⟩ := hd'
  rcases h with ⟨ht, rfl, rfl⟩ | ⟨ht, n2, hl, rfl⟩ <;> rcases h' with ⟨ht', rfl, rfl⟩ | ⟨ht', n2', hl', rfl⟩
  · exact ⟨rfl, rfl, rfl⟩
  · omega
  · omega
  · rw [hl] at hl'
    simp only [Option.some.injEq, Prod.mk.injEq] at hl'
    exact ⟨rfl, hl'.1, by omega⟩

/-- A header lies inside the buffer and is not empty; with a length of 0 it has two bytes or more (R115, R155). -/
theorem HeaderAt.bounds (hC : C.Conforms) {t l : Word} {he : Nat} (h : HeaderAt C B off t l he) :
    off < he ∧ he ≤ B.len ∧ off + 2 ≤ he + l.toNat := by
  obtain ⟨n1, hd, h⟩ := h
  obtain ⟨-, h1, h2, -⟩ := hC.dec_some hd
  rcases h with ⟨ht, rfl, rfl⟩ | ⟨ht, n2, hl, rfl⟩
  · rw [impliedLength_toNat t ht]
    have := Nat.one_le_two_pow (n := t.toNat / 8)
    omega
  · obtain ⟨-, h3, h4, -⟩ := hC.dec_some hl
    omega

/-- The bytes a header is: `IntEnc(type)`, and `IntEnc(length)` after it for `type >= 128` (R80). -/
def headerBytes (C : IntCodec) (type length : Word) : List Byte :=
  if type.toNat < 128 then C.enc type else C.enc type ++ C.enc length

/-- A header stands at `off` exactly where its bytes do (R114, R116). -/
theorem headerAt_iff (hC : C.Conforms) {t l : Word} {he : Nat} :
    HeaderAt C B off t l he ↔ (t.toNat < 128 → l = BitVec.ofNat 64 (2 ^ (t.toNat / 8))) ∧
      he = off + (headerBytes C t l).length ∧ B.HasAt off (headerBytes C t l) := by
  unfold headerBytes
  constructor
  · rintro ⟨n1, hd, h⟩
    obtain ⟨rfl, -, -, h1⟩ := hC.dec_some hd
    rcases h with ⟨ht, rfl, rfl⟩ | ⟨ht, n2, hl, rfl⟩
    · simp [ht, h1]
    · obtain ⟨rfl, -, -, h2⟩ := hC.dec_some hl
      rw [if_neg (by omega)]
      refine ⟨by omega, by simp; omega, (ByteSeq.hasAt_append_iff _ _ _ _).2 ⟨h1, h2⟩⟩
  · rintro ⟨hlen, rfl, hat⟩
    by_cases ht : t.toNat < 128
    · rw [if_pos ht] at hat ⊢
      exact ⟨_, hC.dec_of_hasAt hat, .inl ⟨ht, hlen ht, rfl⟩⟩
    · rw [if_neg ht] at hat ⊢
      obtain ⟨h1, h2⟩ := (ByteSeq.hasAt_append_iff _ _ _ _).1 hat
      refine ⟨_, hC.dec_of_hasAt h1, .inr ⟨by omega, _, hC.dec_of_hasAt h2, ?_⟩⟩
      simp; omega

end Sys2Proof.Machine
end

