-- ==== Sys2Proof/Laws/Memory.lean ====
section
/-! SUPPORT. The memory: read after write, and that every operation keeps the canonical form. -/

namespace Sys2Proof.Machine

open Config

theorem Memory.wf_nil : Memory.wf [] := by simp [Memory.wf]

theorem Memory.wf_cons_iff (c : Host.Cell) (m : List Host.Cell) :
    Memory.wf (c :: m) ↔ (∀ d ∈ m, c.1 < d.1) ∧ c.2 ≠ unlistedByte ∧ Memory.wf m := by
  simp [Memory.wf, List.pairwise_cons]
  tauto

/-- An address below every entry is unlisted. -/
theorem Memory.read_of_forall_lt (m : List Host.Cell) (x : Nat) (h : ∀ d ∈ m, x < d.1) :
    Memory.read m x = unlistedByte := by
  induction m with
  | nil => rfl
  | cons c m ih =>
    have h1 := h c (by simp)
    rw [Memory.read, if_neg (by omega)]
    exact ih fun d hd => h d (by simp [hd])

theorem Memory.mem_write (m : List Host.Cell) (x : Nat) (v : Byte) (d : Host.Cell) (h : d ∈ Memory.write m x v) :
    d = (x, v) ∧ v ≠ unlistedByte ∨ d ∈ m := by
  induction m with
  | nil =>
    unfold Memory.write at h
    split at h <;> simp_all
  | cons c m ih =>
    unfold Memory.write at h
    split_ifs at h <;> simp at h ⊢ <;> grind

/-- A write keeps the canonical form. -/
theorem Memory.wf_write (m : List Host.Cell) (x : Nat) (v : Byte) (h : Memory.wf m) :
    Memory.wf (Memory.write m x v) := by
  induction m with
  | nil =>
    unfold Memory.write
    split <;> simp_all [Memory.wf]
  | cons c m ih =>
    obtain ⟨h1, h2, h3⟩ := (Memory.wf_cons_iff c m).1 h
    unfold Memory.write
    split_ifs with ha hv hx hv
    · exact h
    · refine (Memory.wf_cons_iff _ _).2 ⟨fun d hd => ?_, hv, h⟩
      rcases List.mem_cons.1 hd with rfl | hd
      · exact ha
      · exact lt_trans ha (h1 d hd)
    · exact h3
    · refine (Memory.wf_cons_iff _ _).2 ⟨fun d hd => ?_, hv, h3⟩
      exact hx ▸ h1 d hd
    · refine (Memory.wf_cons_iff _ _).2 ⟨fun d hd => ?_, h2, ih h3⟩
      rcases Memory.mem_write m x v d hd with ⟨rfl, -⟩ | hd
      · simp only; omega
      · exact h1 d hd

/-- Read after write: the written address gives the value, every other address what it gave before. -/
theorem Memory.read_write (m : List Host.Cell) (x y : Nat) (v : Byte) (h : Memory.wf m) :
    Memory.read (Memory.write m x v) y = if y = x then v else Memory.read m y := by
  induction m with
  | nil =>
    unfold Memory.write
    split_ifs <;> simp_all [Memory.read, eq_comm]
  | cons c m ih =>
    obtain ⟨h1, h2, h3⟩ := (Memory.wf_cons_iff c m).1 h
    have hm := ih h3
    have hlow : x ≤ c.1 → Memory.read m x = unlistedByte := fun hx =>
      Memory.read_of_forall_lt m x fun d hd => lt_of_le_of_lt hx (h1 d hd)
    obtain ⟨a, b⟩ := c
    unfold Memory.write
    grind [Memory.read]

theorem Memory.mem_ofBytesAt (a : Nat) (b : List Byte) (d : Host.Cell) (h : d ∈ Memory.ofBytesAt a b) :
    a ≤ d.1 ∧ d.2 ≠ unlistedByte := by
  induction b generalizing a with
  | nil => simp [Memory.ofBytesAt] at h
  | cons x b ih =>
    unfold Memory.ofBytesAt at h
    split_ifs at h with hx
    · have := ih (a + 1) h; exact ⟨by omega, this.2⟩
    · rcases List.mem_cons.1 h with rfl | h
      · exact ⟨le_refl _, hx⟩
      · have := ih (a + 1) h; exact ⟨by omega, this.2⟩

/-- Binding a buffer gives a canonical memory. -/
theorem Memory.wf_ofBytesAt (a : Nat) (b : List Byte) : Memory.wf (Memory.ofBytesAt a b) := by
  induction b generalizing a with
  | nil => exact Memory.wf_nil
  | cons x b ih =>
    unfold Memory.ofBytesAt
    split_ifs with hx
    · exact ih _
    · refine (Memory.wf_cons_iff _ _).2 ⟨fun d hd => ?_, hx, ih _⟩
      have := (Memory.mem_ofBytesAt _ _ _ hd).1
      simp only; omega

/-- What a bound buffer reads as: its bytes. -/
theorem Memory.read_ofBytesAt (a : Nat) (b : List Byte) (i : Nat) :
    Memory.read (Memory.ofBytesAt a b) (a + i) = b.getD i unlistedByte := by
  induction b generalizing a i with
  | nil => simp [Memory.ofBytesAt, Memory.read]
  | cons x b ih =>
    cases i with
    | zero =>
      unfold Memory.ofBytesAt
      split_ifs with hx
      · rw [Memory.read_of_forall_lt _ _ fun d hd => by have := (Memory.mem_ofBytesAt _ _ _ hd).1; omega]
        simp [hx]
      · simp [Memory.read]
    | succ i =>
      have h : a + (i + 1) = a + 1 + i := by omega
      unfold Memory.ofBytesAt
      split_ifs with hx
      · rw [h, ih]; simp
      · rw [Memory.read, if_neg (by omega), h, ih]; simp

theorem Memory.wf_writeBytes (m : List Host.Cell) (a : Nat) (b : List Byte) (h : Memory.wf m) :
    Memory.wf (Memory.writeBytes m a b) := by
  induction b generalizing m a with
  | nil => exact h
  | cons x b ih => exact ih _ _ (Memory.wf_write m a x h)

end Sys2Proof.Machine
end

