-- ==== Sys2Proof/Laws/State.lean ====
section
/-! SUPPORT. The fields of the state after each of its operations: one lemma per field per operation, by `rfl`. -/

namespace Sys2Proof.Machine

variable (s : State)

/-! ### `answer` -/

@[simp] theorem State.answer_cursor (r : Reply) : (s.answer r).cursor = s.cursor := rfl
@[simp] theorem State.answer_buflen (r : Reply) : (s.answer r).buflen = s.buflen := rfl
@[simp] theorem State.answer_kind (r : Reply) : (s.answer r).kind = s.kind := rfl
@[simp] theorem State.answer_err (r : Reply) : (s.answer r).err = s.err := rfl
@[simp] theorem State.answer_halt (r : Reply) : (s.answer r).halt = s.halt := rfl
@[simp] theorem State.answer_result (r : Reply) : (s.answer r).result = s.result := rfl
@[simp] theorem State.answer_mem (r : Reply) : (s.answer r).mem = s.mem := rfl
@[simp] theorem State.answer_inbox (r : Reply) : (s.answer r).inbox = s.inbox := rfl
@[simp] theorem State.answer_reply (r : Reply) : (s.answer r).reply = some r := rfl
@[simp] theorem State.answer_freeCount (r : Reply) : (s.answer r).freeCount = s.freeCount := rfl

/-! ### `setCursor` -/

@[simp] theorem State.setCursor_cursor (off : Offset) : (s.setCursor off).cursor = off := rfl
@[simp] theorem State.setCursor_buflen (off : Offset) : (s.setCursor off).buflen = s.buflen := rfl
@[simp] theorem State.setCursor_kind (off : Offset) : (s.setCursor off).kind = s.kind := rfl
@[simp] theorem State.setCursor_err (off : Offset) : (s.setCursor off).err = s.err := rfl
@[simp] theorem State.setCursor_halt (off : Offset) : (s.setCursor off).halt = s.halt := rfl
@[simp] theorem State.setCursor_result (off : Offset) : (s.setCursor off).result = s.result := rfl
@[simp] theorem State.setCursor_mem (off : Offset) : (s.setCursor off).mem = s.mem := rfl
@[simp] theorem State.setCursor_inbox (off : Offset) : (s.setCursor off).inbox = s.inbox := rfl
@[simp] theorem State.setCursor_reply (off : Offset) : (s.setCursor off).reply = s.reply := rfl
@[simp] theorem State.setCursor_freeCount (off : Offset) : (s.setCursor off).freeCount = s.freeCount := rfl

/-! ### `putRecord` -/

@[simp] theorem State.putRecord_cursor (r : Result) : (s.putRecord r).cursor = s.cursor := rfl
@[simp] theorem State.putRecord_buflen (r : Result) : (s.putRecord r).buflen = s.buflen := rfl
@[simp] theorem State.putRecord_kind (r : Result) : (s.putRecord r).kind = .record := rfl
@[simp] theorem State.putRecord_err (r : Result) : (s.putRecord r).err = none := rfl
@[simp] theorem State.putRecord_halt (r : Result) : (s.putRecord r).halt = s.halt := rfl
@[simp] theorem State.putRecord_result (r : Result) : (s.putRecord r).result = some r := rfl
@[simp] theorem State.putRecord_mem (r : Result) : (s.putRecord r).mem = s.mem := rfl
@[simp] theorem State.putRecord_inbox (r : Result) : (s.putRecord r).inbox = s.inbox := rfl
@[simp] theorem State.putRecord_reply (r : Result) : (s.putRecord r).reply = s.reply := rfl
@[simp] theorem State.putRecord_freeCount (r : Result) : (s.putRecord r).freeCount = s.freeCount := rfl

/-! ### `putEnd` -/

@[simp] theorem State.putEnd_cursor : s.putEnd.cursor = s.cursor := rfl
@[simp] theorem State.putEnd_buflen : s.putEnd.buflen = s.buflen := rfl
@[simp] theorem State.putEnd_kind : s.putEnd.kind = .atEnd := rfl
@[simp] theorem State.putEnd_err : s.putEnd.err = none := rfl
@[simp] theorem State.putEnd_halt : s.putEnd.halt = s.halt := rfl
@[simp] theorem State.putEnd_result : s.putEnd.result = none := rfl
@[simp] theorem State.putEnd_mem : s.putEnd.mem = s.mem := rfl
@[simp] theorem State.putEnd_inbox : s.putEnd.inbox = s.inbox := rfl
@[simp] theorem State.putEnd_reply : s.putEnd.reply = s.reply := rfl
@[simp] theorem State.putEnd_freeCount : s.putEnd.freeCount = s.freeCount := rfl

/-! ### `putError` -/

@[simp] theorem State.putError_cursor (e : DecodeError) : (s.putError e).cursor = s.cursor := rfl
@[simp] theorem State.putError_buflen (e : DecodeError) : (s.putError e).buflen = s.buflen := rfl
@[simp] theorem State.putError_kind (e : DecodeError) : (s.putError e).kind = .error := rfl
@[simp] theorem State.putError_err (e : DecodeError) : (s.putError e).err = some e := rfl
@[simp] theorem State.putError_halt (e : DecodeError) : (s.putError e).halt = s.halt := rfl
@[simp] theorem State.putError_result (e : DecodeError) : (s.putError e).result = none := rfl
@[simp] theorem State.putError_mem (e : DecodeError) : (s.putError e).mem = s.mem := rfl
@[simp] theorem State.putError_inbox (e : DecodeError) : (s.putError e).inbox = s.inbox := rfl
@[simp] theorem State.putError_reply (e : DecodeError) : (s.putError e).reply = s.reply := rfl
@[simp] theorem State.putError_freeCount (e : DecodeError) : (s.putError e).freeCount = s.freeCount := rfl

/-! ### `setHalt` -/

@[simp] theorem State.setHalt_cursor : s.setHalt.cursor = s.cursor := rfl
@[simp] theorem State.setHalt_buflen : s.setHalt.buflen = s.buflen := rfl
@[simp] theorem State.setHalt_kind : s.setHalt.kind = s.kind := rfl
@[simp] theorem State.setHalt_err : s.setHalt.err = s.err := rfl
@[simp] theorem State.setHalt_halt : s.setHalt.halt = true := rfl
@[simp] theorem State.setHalt_result : s.setHalt.result = s.result := rfl
@[simp] theorem State.setHalt_mem : s.setHalt.mem = s.mem := rfl
@[simp] theorem State.setHalt_inbox : s.setHalt.inbox = s.inbox := rfl
@[simp] theorem State.setHalt_reply : s.setHalt.reply = s.reply := rfl
@[simp] theorem State.setHalt_freeCount : s.setHalt.freeCount = s.freeCount := rfl

/-! ### `clearScan` -/

@[simp] theorem State.clearScan_cursor : s.clearScan.cursor = s.cursor := rfl
@[simp] theorem State.clearScan_buflen : s.clearScan.buflen = s.buflen := rfl
@[simp] theorem State.clearScan_kind : s.clearScan.kind = .none := rfl
@[simp] theorem State.clearScan_err : s.clearScan.err = none := rfl
@[simp] theorem State.clearScan_halt : s.clearScan.halt = false := rfl
@[simp] theorem State.clearScan_result : s.clearScan.result = none := rfl
@[simp] theorem State.clearScan_mem : s.clearScan.mem = s.mem := rfl
@[simp] theorem State.clearScan_inbox : s.clearScan.inbox = s.inbox := rfl
@[simp] theorem State.clearScan_reply : s.clearScan.reply = s.reply := rfl
@[simp] theorem State.clearScan_freeCount : s.clearScan.freeCount = s.freeCount := rfl

/-! ### `bindBuffer` -/

@[simp] theorem State.bindBuffer_cursor (b : List Byte) : (s.bindBuffer b).cursor = s.cursor := rfl
@[simp] theorem State.bindBuffer_buflen (b : List Byte) : (s.bindBuffer b).buflen = BitVec.ofNat Config.offw b.length := rfl
@[simp] theorem State.bindBuffer_kind (b : List Byte) : (s.bindBuffer b).kind = s.kind := rfl
@[simp] theorem State.bindBuffer_err (b : List Byte) : (s.bindBuffer b).err = s.err := rfl
@[simp] theorem State.bindBuffer_halt (b : List Byte) : (s.bindBuffer b).halt = s.halt := rfl
@[simp] theorem State.bindBuffer_result (b : List Byte) : (s.bindBuffer b).result = s.result := rfl
@[simp] theorem State.bindBuffer_mem (b : List Byte) : (s.bindBuffer b).mem = Memory.ofBytesAt 0 b := rfl
@[simp] theorem State.bindBuffer_inbox (b : List Byte) : (s.bindBuffer b).inbox = s.inbox := rfl
@[simp] theorem State.bindBuffer_reply (b : List Byte) : (s.bindBuffer b).reply = s.reply := rfl
@[simp] theorem State.bindBuffer_freeCount (b : List Byte) : (s.bindBuffer b).freeCount = s.freeCount := rfl

/-! ### `afterReset` -/

@[simp] theorem State.afterReset_cursor : s.afterReset.cursor = 0 := rfl
@[simp] theorem State.afterReset_buflen : s.afterReset.buflen = 0 := rfl
@[simp] theorem State.afterReset_kind : s.afterReset.kind = .none := rfl
@[simp] theorem State.afterReset_err : s.afterReset.err = none := rfl
@[simp] theorem State.afterReset_halt : s.afterReset.halt = false := rfl
@[simp] theorem State.afterReset_result : s.afterReset.result = none := rfl
@[simp] theorem State.afterReset_mem : s.afterReset.mem = s.mem := rfl
@[simp] theorem State.afterReset_inbox : s.afterReset.inbox = s.inbox := rfl
@[simp] theorem State.afterReset_reply : s.afterReset.reply = none := rfl
@[simp] theorem State.afterReset_freeCount : s.afterReset.freeCount = s.freeCount := rfl

/-! ### The buffer as a byte sequence -/

@[simp] theorem State.buf_len : s.buf.len = s.buflen.toNat := rfl
@[simp] theorem State.buf_byte (a : Nat) : s.buf.byte a = Memory.read s.mem a := rfl
@[simp] theorem State.answer_buf (r : Reply) : (s.answer r).buf = s.buf := rfl
@[simp] theorem State.setCursor_buf (off : Offset) : (s.setCursor off).buf = s.buf := rfl
@[simp] theorem State.putRecord_buf (r : Result) : (s.putRecord r).buf = s.buf := rfl
@[simp] theorem State.putEnd_buf : s.putEnd.buf = s.buf := rfl
@[simp] theorem State.putError_buf (e : DecodeError) : (s.putError e).buf = s.buf := rfl
@[simp] theorem State.setHalt_buf : s.setHalt.buf = s.buf := rfl
@[simp] theorem State.clearScan_buf : s.clearScan.buf = s.buf := rfl

/-! ### Headers and results -/

@[simp] theorem Header.toResult_rType (h : Header) : h.toResult.rType = h.type := rfl
@[simp] theorem Header.toResult_rLength (h : Header) : h.toResult.rLength = h.length := rfl
@[simp] theorem Header.toResult_rVstart (h : Header) : h.toResult.rVstart = BitVec.ofNat Config.offw h.vstart := rfl
@[simp] theorem Header.toResult_rNext (h : Header) : h.toResult.rNext = BitVec.ofNat Config.offw h.next := rfl

/-- The buffer's length fits in `OFFW` bits. -/
theorem State.buf_len_lt : s.buf.len < 2 ^ 64 := s.buflen.isLt

end Sys2Proof.Machine
end

