-- ==== Sys2Proof/Laws/Ops.lean ====
section
/-! SUPPORT. The shared operations of the machine, each said once: delivering a decode, the record operand forms, and what
a step can do. -/

namespace Sys2Proof.Machine

/-! ## Delivering a decode -/

/-- A yielded record, register by register. -/
theorem yieldRecord_eq (site : Site) (h : Header) (s : State) : yieldRecord site h s = yielded site h.toResult s := by
  cases site <;> rfl

/-- Error entry, register by register. -/
theorem raiseError_eq (site : Site) (e : DecodeError) (s : State) : raiseError site e s = failed site e s := by
  cases site <;> rfl

@[simp] theorem deliver_ok (site : Site) (h : Header) (s : State) :
    deliver site (.ok h) s = yielded site h.toResult s := yieldRecord_eq site h s

@[simp] theorem deliver_error (site : Site) (e : DecodeError) (s : State) :
    deliver site (.error e) s = failed site e s := raiseError_eq site e s

variable (site : Site) (d : Except DecodeError Header) (s : State)

@[simp] theorem deliver_mem : (deliver site d s).mem = s.mem := by cases d <;> simp [yielded, failed]
@[simp] theorem deliver_buflen : (deliver site d s).buflen = s.buflen := by cases d <;> simp [yielded, failed]
@[simp] theorem deliver_inbox : (deliver site d s).inbox = s.inbox := by cases d <;> simp [yielded, failed]
@[simp] theorem deliver_freeCount : (deliver site d s).freeCount = s.freeCount := by
  cases d <;> simp [yielded, failed]
@[simp] theorem deliver_buf : (deliver site d s).buf = s.buf := by cases d <;> cases site <;> rfl

/-- Outside the scan a decode leaves `CURSOR` and `HALT` alone (R158). -/
theorem deliver_peek_scan (off : Offset) :
    (deliver (.peek off) d s).cursor = s.cursor ∧ (deliver (.peek off) d s).halt = s.halt := by
  cases d <;> simp [yielded, failed]

/-! ## The operand forms of a record -/

/-- Format I's operand form is the header test of `DecodeOne`. -/
theorem impliedHeader_eq (s : State) (off : Nat) (type : Word) (length : Nat) (h : length < 2 ^ 64) :
    impliedHeader s off type length =
      finishHeader s.buf.len type (BitVec.ofNat 64 length) (off + typeFieldSize type) := by
  simp only [impliedHeader, finishHeader, toNat_ofNat_of_lt length h, State.buf_len, gt_iff_lt]

/-- Format X's operand form likewise. -/
theorem explicitHeader_eq (s : State) (off : Nat) (type : Word) :
    explicitHeader s off type = match intCodec.dec s.buf (off + typeFieldSize type) with
      | none => .error (.malformedInteger .length)
      | some (l, n2) => finishHeader s.buf.len type l (off + typeFieldSize type + n2) := rfl

theorem impliedType_toNat (cls : BitVec 4) (slot : BitVec 3) :
    (impliedType cls slot).toNat = 8 * cls.toNat + slot.toNat := by
  have h1 := cls.isLt
  have h2 := slot.isLt
  simp only [impliedType, BitVec.toNat_append]
  rw [show BitVec.toNat (0 : BitVec 57) = 0 from rfl, Nat.zero_shiftLeft, Nat.zero_or, ← Nat.shiftLeft_add_eq_or_of_lt h2, Nat.shiftLeft_eq]
  omega

theorem impliedType_eq (cls : BitVec 4) (slot : BitVec 3) :
    impliedType cls slot = BitVec.ofNat 64 (8 * cls.toNat + slot.toNat) := by
  apply BitVec.eq_of_toNat_eq
  have h1 := cls.isLt
  have h2 := slot.isLt
  rw [impliedType_toNat, toNat_ofNat_of_lt]
  omega

/-! ## The step -/

/-- All a step can do: nothing, reset, a register read, a decoded command, or `REFUSED`. -/
theorem step_cases (s : State) :
    (s.inbox = [] ∧ step s = .next s) ∨
    (∃ rest, s.inbox = .reset :: rest ∧ step s = .next { s with inbox := rest }.afterReset) ∨
    (∃ n rest, s.inbox = .read n :: rest ∧ step s = .next (runRead n { s with inbox := rest })) ∨
    (∃ c rest i, s.inbox = .command c :: rest ∧ decode (.command c) = .ok i ∧
      step s = exec i { s with inbox := rest }) ∨
    (∃ c rest r, s.inbox = .command c :: rest ∧ decode (.command c) = .error r ∧
      step s = .next { s with inbox := rest, reply := some (.response .refused) }) := by
  unfold step State.takeEvent
  cases hin : s.inbox with
  | nil => exact .inl ⟨rfl, rfl⟩
  | cons e rest =>
    cases e with
    | reset => exact .inr (.inl ⟨rest, rfl, rfl⟩)
    | read n => exact .inr (.inr (.inl ⟨n, rest, rfl, rfl⟩))
    | command c =>
      cases hd : decode (.command c) with
      | ok i => exact .inr (.inr (.inr (.inl ⟨c, rest, i, rfl, hd, by simp [runCommand, hd]⟩)))
      | error r =>
        exact .inr (.inr (.inr (.inr ⟨c, rest, r, rfl, hd, by simp [runCommand, hd, refuseCommand, State.answer]⟩)))

/-- The command a code decodes to (R92). -/
theorem decodeCommand_ok {c : Command} {i : Instr} (h : decode (.command c) = .ok i) :
    (c.code = 0x01 ∧ i = .bind c.data) ∨ (c.code = 0x02 ∧ i = .seek c.off) ∨ (c.code = 0x03 ∧ i = .next) ∨
    (c.code = 0x04 ∧ i = .decodeAt c.off) := by
  simp only [decode, decodeCommand] at h
  split_ifs at h with h1 h2 h3 h4 <;> simp_all

/-- All `NEXT` can do (R174). -/
theorem execNext_cases (s : State) :
    (s.halt = true ∧ exec .next s = .next (s.answer (.response .halted))) ∨
    (s.halt = false ∧ s.cursor = s.buflen ∧ exec .next s = .next (s.putEnd.answer (.response .atEnd))) ∨
    (s.halt = false ∧ s.cursor ≠ s.buflen ∧
      exec .next s = .next (deliver .scan (decodeOne intCodec s.buf s.cursor.toNat) s)) := by
  simp only [exec, execNext]
  cases hh : s.halt with
  | true => simp
  | false =>
    by_cases hc : s.cursor = s.buflen
    · simp [hc]
    · simp [hc]

end Sys2Proof.Machine
end

