-- ==== Sys2Proof/Laws/PerInstr.lean ====
section
/-! SUPPORT. Per instruction, as syntax: what its encoding is (LAWS.json names the family WireEncoding). -/

namespace Sys2Proof.Laws.WireEncoding

open Sys2Proof Sys2Proof.Machine

/-- The encoding of `i` is a command with one of the four codes of R92, or a type inside the range its mnemonic has in the
opcode table (R86, R87), or, for the reference function alone, nothing. -/
def Statement (i : Instr) : Prop :=
  i.WellFormed →
    (∃ c, encode i = some (.command c) ∧ 1 ≤ c.code.toNat ∧ c.code.toNat ≤ 4) ∨
    (∃ site type, encode i = some (.record site type) ∧
      ∃ row ∈ wireRows, row.mnemonic = i.mnemonic ∧ row.typeMin ≤ type.toNat ∧ type.toNat ≤ row.typeMax) ∨
    (encode i = none ∧ i.mnemonic = "ENCODE_RECORD")

/-- A record of format I: its row is the one of its class. -/
theorem implied (i : Instr) (site : Site) (cls : BitVec 4) (slot : BitVec 3) (row : WireRow)
    (h : encode i = some (.record site (impliedType cls slot))) (hrow : row ∈ wireRows)
    (hm : row.mnemonic = i.mnemonic) (hmin : row.typeMin = 8 * cls.toNat) (hmax : row.typeMax = 8 * cls.toNat + 7) :
    Statement i := by
  intro _
  have hs := slot.isLt
  refine .inr (.inl ⟨site, _, h, row, hrow, hm, ?_, ?_⟩) <;> rw [impliedType_toNat] <;> omega

theorem recI0 (site : Site) (slot : BitVec 3) : Statement (.recI0 site slot) :=
  implied _ site 0 slot (wireRows[0]'(by decide)) rfl (List.getElem_mem _) rfl rfl rfl

theorem recI1 (site : Site) (slot : BitVec 3) : Statement (.recI1 site slot) :=
  implied _ site 1 slot (wireRows[1]'(by decide)) rfl (List.getElem_mem _) rfl rfl rfl

theorem recI2 (site : Site) (slot : BitVec 3) : Statement (.recI2 site slot) :=
  implied _ site 2 slot (wireRows[2]'(by decide)) rfl (List.getElem_mem _) rfl rfl rfl

theorem recI3 (site : Site) (slot : BitVec 3) : Statement (.recI3 site slot) :=
  implied _ site 3 slot (wireRows[3]'(by decide)) rfl (List.getElem_mem _) rfl rfl rfl

theorem recI4 (site : Site) (slot : BitVec 3) : Statement (.recI4 site slot) :=
  implied _ site 4 slot (wireRows[4]'(by decide)) rfl (List.getElem_mem _) rfl rfl rfl

theorem recI5 (site : Site) (slot : BitVec 3) : Statement (.recI5 site slot) :=
  implied _ site 5 slot (wireRows[5]'(by decide)) rfl (List.getElem_mem _) rfl rfl rfl

theorem recI6 (site : Site) (slot : BitVec 3) : Statement (.recI6 site slot) :=
  implied _ site 6 slot (wireRows[6]'(by decide)) rfl (List.getElem_mem _) rfl rfl rfl

theorem recI7 (site : Site) (slot : BitVec 3) : Statement (.recI7 site slot) :=
  implied _ site 7 slot (wireRows[7]'(by decide)) rfl (List.getElem_mem _) rfl rfl rfl

theorem recI8 (site : Site) (slot : BitVec 3) : Statement (.recI8 site slot) :=
  implied _ site 8 slot (wireRows[8]'(by decide)) rfl (List.getElem_mem _) rfl rfl rfl

theorem recI9 (site : Site) (slot : BitVec 3) : Statement (.recI9 site slot) :=
  implied _ site 9 slot (wireRows[9]'(by decide)) rfl (List.getElem_mem _) rfl rfl rfl

theorem recI10 (site : Site) (slot : BitVec 3) : Statement (.recI10 site slot) :=
  implied _ site 10 slot (wireRows[10]'(by decide)) rfl (List.getElem_mem _) rfl rfl rfl

theorem recI11 (site : Site) (slot : BitVec 3) : Statement (.recI11 site slot) :=
  implied _ site 11 slot (wireRows[11]'(by decide)) rfl (List.getElem_mem _) rfl rfl rfl

theorem recI12 (site : Site) (slot : BitVec 3) : Statement (.recI12 site slot) :=
  implied _ site 12 slot (wireRows[12]'(by decide)) rfl (List.getElem_mem _) rfl rfl rfl

theorem recI13 (site : Site) (slot : BitVec 3) : Statement (.recI13 site slot) :=
  implied _ site 13 slot (wireRows[13]'(by decide)) rfl (List.getElem_mem _) rfl rfl rfl

theorem recI14 (site : Site) (slot : BitVec 3) : Statement (.recI14 site slot) :=
  implied _ site 14 slot (wireRows[14]'(by decide)) rfl (List.getElem_mem _) rfl rfl rfl

theorem recI15 (site : Site) (slot : BitVec 3) : Statement (.recI15 site slot) :=
  implied _ site 15 slot (wireRows[15]'(by decide)) rfl (List.getElem_mem _) rfl rfl rfl

theorem recXS (site : Site) (type : Word) : Statement (.recXS site type) := by
  intro h
  simp only [Instr.WellFormed, Instr.wellFormed, Bool.and_eq_true, decide_eq_true_eq] at h
  exact .inr (.inl ⟨site, type, rfl, wireRows[17]'(by decide), List.getElem_mem _, rfl, h.1, h.2⟩)

/-- `REC.XM` has two rows, types 248 to 255 and 256 and above (R87). -/
theorem recXM (site : Site) (type : Word) : Statement (.recXM site type) := by
  intro h
  simp only [Instr.WellFormed, Instr.wellFormed, decide_eq_true_eq] at h
  have hlt := type.isLt
  refine .inr (.inl ⟨site, type, rfl, ?_⟩)
  by_cases h255 : type.toNat ≤ 255
  · exact ⟨wireRows[16]'(by decide), List.getElem_mem _, rfl, h, h255⟩
  · refine ⟨wireRows[18]'(by decide), List.getElem_mem _, rfl, ?_, ?_⟩ <;> simp [wireRows] <;> omega

theorem bind (b : List Byte) : Statement (.bind b) := fun _ => .inl ⟨_, rfl, by simp⟩
theorem seek (off : Offset) : Statement (.seek off) := fun _ => .inl ⟨_, rfl, by simp⟩
theorem next : Statement .next := fun _ => .inl ⟨_, rfl, by simp⟩
theorem decodeAt (off : Offset) : Statement (.decodeAt off) := fun _ => .inl ⟨_, rfl, by simp⟩
theorem encodeRecord (type : Word) (value : List Byte) : Statement (.encodeRecord type value) :=
  fun _ => .inr (.inr ⟨rfl, rfl⟩)

end Sys2Proof.Laws.WireEncoding
end

