-- ==== Sys2Proof/Tests/Slice0.lean ====
section
/-! SUPPORT. Tests: single decodes and single steps, their expected results from the spec's rules and from the vectors of
95_test_vectors.md (I, V, E, H, P numbers), which the spec worked out by hand.  After them, for each statement of
Obligations.lean that has hypotheses, a witness that meets them all. -/

open Sys2Proof Sys2Proof.Machine

namespace Sys2Proof.Tests

/-! ## Helpers -/

/-- The scanner bound to `b`, right after the `BIND` (R201). -/
def bound (b : List Byte) : State :=
  { State.reset with mem := Memory.ofBytesAt 0 b, buflen := BitVec.ofNat 64 b.length }

/-- The scanner bound to `b` followed by zeros up to a length of `len`. -/
def boundZeros (b : List Byte) (len : Nat) : State :=
  { State.reset with mem := Memory.ofBytesAt 0 b, buflen := BitVec.ofNat 64 len }

/-- What a command vector shows: `CURSOR / BUFLEN / STATUS` and the response. -/
structure Seen where
  cursor : Offset
  buflen : Offset
  status : BitVec 8
  reply  : Option Reply
deriving DecidableEq, Repr

/-- What one step on a command leaves. -/
def after (code : BitVec 8) (off : Offset) (data : List Byte) (s : State) : Option Seen :=
  match step { s with inbox := [.command ⟨code, off, data⟩] } with
  | .next t => some ⟨t.cursor, t.buflen, t.statusWord, t.reply⟩
  | .fault _ => none
  | .refused _ => none

/-- What an instruction run by itself leaves, likewise. -/
def ran (i : Instr) (s : State) : Option (Nat × BitVec 8 × Option Result) :=
  match exec i s with
  | .next t => some (t.cursor.toNat, t.statusWord, t.result)
  | .fault _ => none
  | .refused _ => none

/-- The value a register read hands over. -/
def readBack (reg : Nat) (s : State) : Option Reply :=
  match step { s with inbox := [.read reg] } with
  | .next t => t.reply
  | .fault _ => none
  | .refused _ => none

/-- The state of vector H5's end: `08 aa bb` with its record yielded. -/
def yielded8 : State := { bound [0x08, 0xaa, 0xbb] with cursor := 3, kind := .record, result := some ⟨8, 2, 1, 3⟩ }

/-- The state of vector H10's end: `08 aa bb`, halted at 7. -/
def halted7 : State :=
  { bound [0x08, 0xaa, 0xbb] with cursor := 7, kind := .error, err := some (.malformedInteger .type), halt := true }

/-- The state of vector H9's end: `08 aa bb`, `CURSOR` beyond the end. -/
def beyond7 : State := { bound [0x08, 0xaa, 0xbb] with cursor := 7 }

/-! ## Well-formedness: each check refuses an ill-formed term -/

theorem test_wellformed_xs_below : ¬ (Instr.recXS .scan 127).WellFormed := by decide
theorem test_wellformed_xs_above : ¬ (Instr.recXS .scan 248).WellFormed := by decide
theorem test_wellformed_xm_below : ¬ (Instr.recXM .scan 247).WellFormed := by decide
theorem test_wellformed_bind_too_long : ¬ (Instr.bind (List.replicate (2 ^ 64) 0)).WellFormed := by
  simp [Instr.WellFormed, Instr.wellFormed, -Nat.reducePow]
theorem test_wellformed_value_too_long : ¬ (Instr.encodeRecord 128 (List.replicate (2 ^ 64) 0)).WellFormed := by
  simp [Instr.WellFormed, Instr.wellFormed, -Nat.reducePow]

/-! ## Decoding: every constructor from a word written out from its encoding (R86, R92) -/

/-- One type of each class of format I, class in bits 6:3 and slot in bits 2:0 (R84). -/
theorem test_decode_classes_0_to_7 :
    decode (.record .scan 0b0000_000) = .ok (.recI0 .scan 0) ∧ decode (.record .scan 0b0001_111) = .ok (.recI1 .scan 7) ∧
    decode (.record .scan 0b0010_001) = .ok (.recI2 .scan 1) ∧ decode (.record .scan 0b0011_010) = .ok (.recI3 .scan 2) ∧
    decode (.record .scan 0b0100_011) = .ok (.recI4 .scan 3) ∧ decode (.record .scan 0b0101_100) = .ok (.recI5 .scan 4) ∧
    decode (.record .scan 0b0110_101) = .ok (.recI6 .scan 5) ∧ decode (.record .scan 0b0111_110) = .ok (.recI7 .scan 6) := by
  decide

theorem test_decode_classes_8_to_15 :
    decode (.record .scan 0b1000_000) = .ok (.recI8 .scan 0) ∧ decode (.record .scan 0b1001_111) = .ok (.recI9 .scan 7) ∧
    decode (.record .scan 0b1010_001) = .ok (.recI10 .scan 1) ∧ decode (.record .scan 0b1011_010) = .ok (.recI11 .scan 2) ∧
    decode (.record .scan 0b1100_011) = .ok (.recI12 .scan 3) ∧ decode (.record .scan 0b1101_100) = .ok (.recI13 .scan 4) ∧
    decode (.record .scan 0b1110_101) = .ok (.recI14 .scan 5) ∧ decode (.record .scan 0b1111_110) = .ok (.recI15 .scan 6) := by
  decide

/-- The ends of the ranges of format X (R86). -/
theorem test_decode_explicit :
    decode (.record .scan 127) = .ok (.recI15 .scan 7) ∧ decode (.record .scan 128) = .ok (.recXS .scan 128) ∧
    decode (.record .scan 247) = .ok (.recXS .scan 247) ∧ decode (.record .scan 248) = .ok (.recXM .scan 248) ∧
    decode (.record .scan 0xFFFFFFFFFFFFFFFF) = .ok (.recXM .scan 0xFFFFFFFFFFFFFFFF) := by decide

theorem test_decode_commands :
    decode (.command ⟨0x01, 0, [0x08]⟩) = .ok (.bind [0x08]) ∧ decode (.command ⟨0x02, 7, []⟩) = .ok (.seek 7) ∧
    decode (.command ⟨0x03, 0, []⟩) = .ok .next ∧ decode (.command ⟨0x04, 3, []⟩) = .ok (.decodeAt 3) ∧
    decode (.command ⟨0x00, 0, []⟩) = .error (.reservedCommandCode 0x00) ∧
    decode (.command ⟨0x05, 0, []⟩) = .error (.reservedCommandCode 0x05) := by decide

/-- The bytes of P2's records (P2, E7), and the malformed type field of V14. -/
theorem test_decode_bytes :
    decodeRecordAt intCodec .scan (.ofList [0x11, 0x01, 0x02, 0x03, 0x04]) 0 = .ok (.recI2 .scan 1) ∧
    decodeRecordAt intCodec (.peek 1) (.ofList [0xff, 0xc8, 0x00]) 1 = .ok (.recXS (.peek 1) 200) ∧
    decodeRecordAt intCodec .scan (.ofList [0xf9, 0x01, 0x2c, 0x05]) 0 = .ok (.recXM .scan 300) ∧
    decodeRecordAt intCodec .scan (.ofList [0xf8, 0x10]) 0 = .error .malformedTypeField := by decide

/-- The encodings of the same words. -/
theorem test_encode :
    encode (.recI2 .scan 1) = some (.record .scan 0b0010_001) ∧ encode (.recI15 .scan 7) = some (.record .scan 127) ∧
    encode (.seek 7) = some (.command ⟨0x02, 7, []⟩) ∧ encode (.encodeRecord 0 []) = none ∧
    encodeTypeField intCodec (.recXM .scan 300) = [0xf9, 0x01, 0x2c] := by decide

/-- Two words of one class select its row, the last row takes what no other does (R87). -/
theorem test_select_row :
    (selectRow 15).map (·.mnemonic) = some "REC.I1" ∧ (selectRow 255).map (·.typeMax) = some 255 ∧
    (selectRow 256).map (·.typeMin) = some 256 := by decide

/-! ## The codec's vectors -/

/-- I4, I5, I9, I10, I11. -/
theorem test_codec_accepts :
    varDec (.ofList [0xf7]) 0 = some (247, 1) ∧ varDec (.ofList [0xf8, 0xf8]) 0 = some (248, 2) ∧
    varDec (.ofList [0xfa, 0x01, 0x00, 0x00]) 0 = some (65536, 4) ∧
    varDec (.ofList [0xfc, 0x01, 0x00, 0x00, 0x00, 0x00]) 0 = some (4294967296, 6) ∧
    varDec (.ofList [0xff, 0xff, 0xff, 0xff, 0xff, 0xff, 0xff, 0xff, 0xff]) 0 = some (18446744073709551615, 9) := by decide

/-- I12, I14, I15, I17, I18. -/
theorem test_codec_refuses :
    varDec (.ofList [0xf8, 0xf7]) 0 = none ∧ varDec (.ofList [0xf9, 0x00, 0x05]) 0 = none ∧
    varDec (.ofList [0xf9, 0x01]) 0 = none ∧ varDec (.ofList []) 0 = none ∧ varDec (.ofList [0x00, 0xaa]) 2 = none := by
  decide

/-- I4, I5, I8, I9. -/
theorem test_codec_encodes :
    varEnc 247 = [0xf7] ∧ varEnc 248 = [0xf8, 0xf8] ∧ varEnc 65535 = [0xf9, 0xff, 0xff] ∧
    varEnc 65536 = [0xfa, 0x01, 0x00, 0x00] := by decide

/-! ## Decoding one header -/

/-- V16, V17: a length of `2^64 - 1` never wraps. -/
theorem test_truncation_does_not_wrap :
    decodeOne intCodec (boundZeros [0x80, 0xff, 0xff, 0xff, 0xff, 0xff, 0xff, 0xff, 0xff, 0xff] 110).buf 0 =
      .error .truncatedValue := by decide

/-- V15, V21, V23. -/
theorem test_malformed :
    decodeOne intCodec (.ofList [0x80, 0xf8, 0x05, 0x01]) 0 = .error (.malformedInteger .length) ∧
    decodeOne intCodec (.ofList [0x80, 0xf9, 0x01]) 0 = .error (.malformedInteger .length) ∧
    decodeOne intCodec (.ofList [0xff, 0xff, 0x08, 0xaa, 0xbb]) 0 = .error (.malformedInteger .type) := by decide

/-! ## Single steps: commands -/

/-- H1: reset from the halted state. -/
theorem test_reset :
    (match step { halted7 with inbox := [.reset] } with
      | .next t => some (t.cursor, t.buflen, t.statusWord, t.reply)
      | .fault _ => none
      | .refused _ => none) = some (0, 0, 0x00, none) := by decide

/-- H4 from a halted state, H24. -/
theorem test_bind :
    after 0x01 0 [0x08, 0xaa, 0xbb] halted7 = some ⟨0, 3, 0x00, some (.response .ok)⟩ ∧
    after 0x01 0 [] halted7 = some ⟨0, 0, 0x00, some (.response .ok)⟩ := by decide

/-- H9, H14. -/
theorem test_seek :
    after 0x02 7 [] (bound [0x08, 0xaa, 0xbb]) = some ⟨7, 3, 0x00, some (.response .ok)⟩ ∧
    after 0x02 3 [] halted7 = some ⟨3, 3, 0x00, some (.response .ok)⟩ := by decide

/-- H5, H6, H16: records and the end. -/
theorem test_next_yields :
    after 0x03 0 [] (bound [0x08, 0xaa, 0xbb]) = some ⟨3, 3, 0x01, some (.response (.record ⟨8, 2, 1, 3⟩))⟩ ∧
    after 0x03 0 [] yielded8 = some ⟨3, 3, 0x02, some (.response .atEnd)⟩ ∧
    after 0x03 0 [] (bound [0x80, 0x00]) = some ⟨2, 2, 0x41, some (.response (.record ⟨128, 0, 2, 2⟩))⟩ := by decide

/-- H10, H11, H17, H18: the errors and the halt. -/
theorem test_next_halts :
    after 0x03 0 [] beyond7 = some ⟨7, 3, 0x27, some (.response (.error (.malformedInteger .type)))⟩ ∧
    after 0x03 0 [] halted7 = some ⟨7, 3, 0x27, some (.response .halted)⟩ ∧
    after 0x03 0 [] (bound [0x80]) = some ⟨0, 1, 0x2b, some (.response (.error (.malformedInteger .length)))⟩ ∧
    after 0x03 0 [] (bound [0x00]) = some ⟨0, 1, 0x2f, some (.response (.error .truncatedValue))⟩ := by decide

/-- H3, H12, H19, H20: `DECODE_AT`, halted and not. -/
theorem test_decode_at :
    after 0x04 0 [] State.reset = some ⟨0, 0, 0x07, some (.response (.error (.malformedInteger .type)))⟩ ∧
    after 0x04 0 [] halted7 = some ⟨7, 3, 0x21, some (.response (.record ⟨8, 2, 1, 3⟩))⟩ ∧
    after 0x04 0 [] (bound [0x80]) = some ⟨0, 1, 0x0b, some (.response (.error (.malformedInteger .length)))⟩ ∧
    after 0x04 0 [] (bound [0x00]) = some ⟨0, 1, 0x0f, some (.response (.error .truncatedValue))⟩ := by decide

/-- H21: a reserved code is answered `REFUSED`, nothing else changes. -/
theorem test_reserved_code :
    after 0x00 7 [0x08] halted7 = some ⟨7, 3, 0x27, some (.response .refused)⟩ ∧
    after 0x05 7 [0x08] yielded8 = some ⟨3, 3, 0x01, some (.response .refused)⟩ := by decide

/-- H22, H23. -/
theorem test_register_reads :
    readBack 0 yielded8 = some (.value 3) ∧ readBack 1 yielded8 = some (.value 3) ∧
    readBack 2 yielded8 = some (.value 0x01) ∧ readBack 3 yielded8 = some (.value 8) ∧
    readBack 4 yielded8 = some (.value 2) ∧ readBack 5 yielded8 = some (.value 1) ∧
    readBack 6 yielded8 = some (.value 3) ∧ readBack 7 yielded8 = some (.response .refused) := by decide

/-- P1: the host reads the value `bb cc` of the record at 2 by its own path (R67). -/
theorem test_value_bytes :
    State.valueBytes { bound [0x00, 0xaa, 0x08, 0xbb, 0xcc] with result := some ⟨8, 2, 3, 5⟩ } = some [0xbb, 0xcc] := by
  decide

/-! ## Single steps: records, the value just fitting and one byte short -/

/-- The row's record at offset 0 with exactly its value's bytes after it. -/
def fits (row : ImpliedRow) : Option (Nat × BitVec 8 × Option Result) :=
  ran (row.make .scan 0) (boundZeros [BitVec.ofNat 8 row.firstType] (1 + row.length))

/-- One byte less. -/
def short (row : ImpliedRow) : Option (Nat × BitVec 8 × Option Result) :=
  ran (row.make .scan 0) (boundZeros [BitVec.ofNat 8 row.firstType] row.length)

/-- Section 3's table, classes 0 to 7; V2, V4 among them. -/
theorem test_implied_low : ∀ row ∈ impliedRowsLow,
    fits row = some (1 + row.length, 0x01,
      some ⟨BitVec.ofNat 64 row.firstType, BitVec.ofNat 64 row.length, 1, BitVec.ofNat 64 (1 + row.length)⟩) ∧
    short row = some (0, 0x2f, none) := by decide

/-- Classes 8 to 15; V6, V31 among them. -/
theorem test_implied_high : ∀ row ∈ impliedRowsHigh,
    fits row = some (1 + row.length, 0x01,
      some ⟨BitVec.ofNat 64 row.firstType, BitVec.ofNat 64 row.length, 1, BitVec.ofNat 64 (1 + row.length)⟩) ∧
    short row = some (0, 0x2f, none) := by decide

/-- V18, V8, V10. -/
theorem test_explicit_small :
    ran (.recXS .scan 247) (bound [0xf7, 0x02, 0xaa, 0xbb]) = some (4, 0x41, some ⟨247, 2, 2, 4⟩) ∧
    ran (.recXS (.peek 0) 128) (bound [0x80, 0x0a, 0x00, 0x01, 0x02, 0x03, 0x04]) = some (0, 0x0f, none) ∧
    ran (.recXS .scan 128) (bound [0x80]) = some (0, 0x2b, none) := by decide

/-- V13, V27, V28 (its 256 zeros unlisted). -/
theorem test_explicit_multibyte :
    ran (.recXM (.peek 0) 248) (bound [0xf8, 0xf8, 0x03, 0x01, 0x02, 0x03]) = some (0, 0x41, some ⟨248, 3, 3, 6⟩) ∧
    ran (.recXM .scan 0xFFFFFFFFFFFFFFFF) (bound [0xff, 0xff, 0xff, 0xff, 0xff, 0xff, 0xff, 0xff, 0xff, 0x00]) =
      some (10, 0x41, some ⟨0xFFFFFFFFFFFFFFFF, 0, 10, 10⟩) ∧
    ran (.recXM .scan 256) (boundZeros [0xf9, 0x01, 0x00, 0xf9, 0x01, 0x00] 262) =
      some (262, 0x41, some ⟨256, 256, 6, 262⟩) := by decide

/-! ## The reference functions -/

/-- What `ENCODE_RECORD` hands over. -/
def encoded (type : Word) (value : List Byte) : Option Reply :=
  match exec (.encodeRecord type value) State.reset with
  | .next t => t.reply
  | .fault _ => none
  | .refused _ => none

/-- E1, E2, E3, E10, E13. -/
theorem test_encode_record :
    encoded 0 [0xaa] = some (.encoded [0x00, 0xaa]) ∧ encoded 0 [0xaa, 0xbb] = some (.encodeError .lengthMismatch) ∧
    encoded 0 [] = some (.encodeError .lengthMismatch) ∧
    encoded 128 [0xde, 0xad, 0xbe] = some (.encoded [0x80, 0x03, 0xde, 0xad, 0xbe]) ∧
    encoded 248 [0x77, 0x88] = some (.encoded [0xf8, 0xf8, 0x02, 0x77, 0x88]) := by decide

/-- P3: a good prefix of two records, then the error at 8. -/
theorem test_scan :
    scan intCodec (.ofList [0x08, 0xaa, 0xbb, 0x80, 0x03, 0x01, 0x02, 0x03, 0x80, 0x0a, 0x10, 0x11, 0x12, 0x13, 0x14]) =
      some ([⟨8, 2, 1, 3⟩, ⟨128, 3, 5, 8⟩], .failed .truncatedValue 8) := by decide

/-! ## The host's words of the opcode table, as the first instruction after reset -/

/-- The type a step from a placed word decodes. -/
def placed (nbits w : Nat) : Option (Option Result × Option Reply) :=
  match step (State.reset.withFetchWord nbits w) with
  | .next t => some (t.result, t.reply)
  | .fault _ => none
  | .refused _ => none

theorem test_table_words :
    decodeTableWord 8 1 = some (.bind []) ∧ decodeTableWord 8 2 = some (.seek 0) ∧ decodeTableWord 8 3 = some .next ∧
    decodeTableWord 8 4 = some (.decodeAt 0) ∧ decodeTableWord 8 5 = none ∧
    decodeTableWord 64 0 = some (.recI0 .scan 0) ∧ decodeTableWord 64 0x80 = some (.recXS .scan 128) ∧
    decodeTableWord 64 0xF8 = some (.recXM .scan 248) := by decide

theorem test_placed_records_run :
    (placed 64 0).map (·.1) = some (some ⟨0, 1, 1, 2⟩) ∧ (placed 64 0x78).map (·.1) = some (some ⟨120, 32768, 1, 32769⟩) ∧
    (placed 64 0x80).map (·.1) = some (some ⟨128, 0, 2, 2⟩) ∧ (placed 64 0xF8).map (·.1) = some (some ⟨248, 0, 3, 3⟩) := by
  decide

theorem test_placed_commands_run :
    (placed 8 1).map (·.2) = some (some (.response .ok)) ∧ (placed 8 2).map (·.2) = some (some (.response .ok)) ∧
    (placed 8 3).map (·.2) = some (some (.response .atEnd)) ∧
    (placed 8 4).map (·.2) = some (some (.response (.error (.malformedInteger .type)))) := by decide

/-! ## Witnesses: for each statement with hypotheses, a state and operands that meet them all

Every statement over "a conforming codec" is met by `intCodec` (`intCodec_conforms`, Laws). -/

/-- The conforming codec of all the statements over one. -/
theorem witness_conforming : intCodec.Conforms := intCodec_conforms

theorem witness_CommandCodesDecodeAsTheTableSays :
    ((0x00 : BitVec 8) = 0x00) ∧ (0x05 : BitVec 8) ≤ 0x05 ∧ (0x05 : BitVec 8) ≤ 0xff := by decide

/-- A row whose range holds the type: the last type of `REC.XS`, the first of the last row. -/
theorem witness_EveryTypeSelectsExactlyOneTableRow :
    (∃ row ∈ wireRows, row.typeMin ≤ 247 ∧ 247 = row.typeMax) ∧ (∃ row ∈ wireRows, row.typeMin = 256 ∧ 256 ≤ row.typeMax) := by
  decide

theorem witness_DecodingAnEncodedInstructionGivesItBack :
    (Instr.seek 7).WellFormed ∧ encode (.seek 7) = some (.command ⟨0x02, 7, []⟩) ∧
    (Instr.recXM .scan 300).WellFormed ∧ (Instr.recXM .scan 300).wireType = some (.scan, 300) ∧
    (ByteSeq.ofList [0xf9, 0x01, 0x2c]).HasAt 0 (encodeTypeField intCodec (.recXM .scan 300)) := by
  unfold ByteSeq.HasAt; decide

/-- Injectivity and prefix-freeness: two equal encodings, one as the other with nothing after it. -/
theorem witness_IntDecIsDeterminedByIntEnc :
    intCodec.enc 248 = intCodec.enc 248 ++ [] ∧ intCodec.dec (.ofList [0x00, 0xf8, 0xf8]) 1 = some (248, 2) ∧
    intCodec.dec (.ofList [0x00, 0xaa]) 2 = none := by decide

/-- The one-byte form's last number; the payload sizes' ends. -/
theorem witness_VaruEncodesInTheShortestForm :
    (247 : Word).toNat < 248 ∧
    (248 ≤ (248 : Word).toNat ∧ (248 : Word).toNat < 2 ^ (8 * 1) ∧ ∀ j < 1, 1 ≤ j → 2 ^ (8 * j) ≤ (248 : Word).toNat) ∧
    (248 ≤ (65536 : Word).toNat ∧ (65536 : Word).toNat < 2 ^ (8 * 3) ∧
      ∀ j < 3, 1 ≤ j → 2 ^ (8 * j) ≤ (65536 : Word).toNat) := by decide

/-- An accepted scalar and one cut short of nothing but not canonical (I5, I12), each moved behind another byte; an
encoding as itself with nothing after it. -/
theorem witness_VaruMeetsTheContract :
    intCodec.dec (.ofList [0xf8, 0xf8]) 0 = some (248, 2) ∧ intCodec.dec (.ofList [0xf8, 0xf7]) 0 = none ∧
    0 + varSize ((ByteSeq.ofList [0xf8, 0xf7]).byte 0) ≤ (ByteSeq.ofList [0xf8, 0xf7]).len ∧
    1 + varSize ((ByteSeq.ofList [0xf8, 0xf7]).byte 0) ≤ (ByteSeq.ofList [0x00, 0xf8, 0xf7]).len ∧
    (∀ i, i < varSize ((ByteSeq.ofList [0xf8, 0xf7]).byte 0) →
      (ByteSeq.ofList [0x00, 0xf8, 0xf7]).byte (1 + i) = (ByteSeq.ofList [0xf8, 0xf7]).byte (0 + i)) ∧
    intCodec.enc 248 = intCodec.enc 248 ++ [] := by
  refine ⟨by decide, by decide, by decide, by decide, ?_, by decide⟩
  intro i hi
  have h2 : i < 2 := hi
  interval_cases i <;> rfl

/-- R123, R124: the sizes at the ends of the first byte's ranges. -/
theorem test_scalar_sizes : varSize 0xf7 = 1 ∧ varSize 0xf8 = 2 ∧ varSize 0xff = 9 := by decide

/-- V2, decoded at the end of another record. -/
theorem witness_DecodedRecordLiesInsideTheBuffer :
    decodeOne intCodec (.ofList [0x00, 0xaa, 0x08, 0xaa, 0xbb]) 2 = .ok ⟨8, 2, 3, 5⟩ := by decide

/-- V9 thrice: the shortest record, `L / 2` of them. -/
theorem witness_RecordsTakeAtLeastTwoBytes :
    decodeOne intCodec (.ofList [0x80, 0x00]) 0 = .ok ⟨128, 0, 2, 2⟩ ∧
    scan intCodec (.ofList [0x80, 0x00, 0x80, 0x00, 0x80, 0x00]) =
      some ([⟨128, 0, 2, 2⟩, ⟨128, 0, 4, 4⟩, ⟨128, 0, 6, 6⟩], .done) := by decide

/-- V24, V25. -/
theorem witness_NoRecordAtOrBeyondTheEnd :
    (ByteSeq.ofList [0x00, 0xaa]).len ≤ 2 ∧ (ByteSeq.ofList [0x00, 0xaa]).len ≤ 3 := by decide

/-- V1 at 0 and, with a byte before it and another value, at 1. -/
theorem witness_RecordDecodesTheSameAnywhere :
    decodeOne intCodec (.ofList [0x00, 0xaa]) 0 = .ok ⟨0, 1, 1, 2⟩ ∧
    (∀ i, i < 1 - 0 → (ByteSeq.ofList [0xff, 0x00, 0xbb]).byte (1 + i) = (ByteSeq.ofList [0x00, 0xaa]).byte (0 + i)) ∧
    1 + (1 - 0) + (1 : Word).toNat ≤ (ByteSeq.ofList [0xff, 0x00, 0xbb]).len := by
  refine ⟨by decide, ?_, by decide⟩
  intro i hi
  obtain rfl : i = 0 := by omega
  rfl

/-- V2 and V3: types 8 and 15, the second after another byte; and V26, the value cut off. -/
theorem witness_TheSlotIsIgnored :
    intCodec.dec (.ofList [0x08, 0xaa, 0xbb]) 0 = some (8, 1) ∧
    intCodec.dec (.ofList [0xff, 0x0f, 0xaa, 0xbb]) 1 = some (15, 1) ∧
    (ByteSeq.ofList [0x08, 0xaa, 0xbb]).len - (0 + 1) = (ByteSeq.ofList [0xff, 0x0f, 0xaa, 0xbb]).len - (1 + 1) ∧
    decodeOne intCodec (.ofList [0x08, 0xaa, 0xbb]) 0 = .ok ⟨8, 2, 1, 3⟩ ∧
    decodeOne intCodec (.ofList [0x08, 0xaa]) 0 = .error .truncatedValue ∧
    (8 : Word).toNat < 128 ∧ (15 : Word).toNat < 128 ∧ (8 : Word) >>> 3 = (15 : Word) >>> 3 := by decide

/-- V1, V26 and V8, and what each becomes with other value bytes. -/
theorem witness_OnlyHeaderBytesMatter :
    decodeOne intCodec (.ofList [0x00, 0xaa]) 0 = .ok ⟨0, 1, 1, 2⟩ ∧
    decodeOne intCodec (.ofList [0x08, 0xaa]) 0 = .error .truncatedValue ∧
    intCodec.dec (.ofList [0x08, 0xaa]) 0 = some (8, 1) ∧
    decodeOne intCodec (.ofList [0x80, 0x0a, 0x00]) 0 = .error .truncatedValue ∧
    intCodec.dec (.ofList [0x80, 0x0a, 0x00]) 0 = some (128, 1) ∧
    intCodec.dec (.ofList [0x80, 0x0a, 0x00]) (0 + 1) = some (10, 1) ∧
    (ByteSeq.ofList [0x00, 0xbb]).byte 0 = (ByteSeq.ofList [0x00, 0xaa]).byte 0 ∧
    (ByteSeq.ofList [0x08, 0xbb]).byte 0 = (ByteSeq.ofList [0x08, 0xaa]).byte 0 ∧
    (∀ i, i < 2 → (ByteSeq.ofList [0x80, 0x0a, 0x01]).byte i = (ByteSeq.ofList [0x80, 0x0a, 0x00]).byte i) := by decide

/-- V16: a length of `2^64 - 1`. -/
theorem witness_TruncationTestNeverWraps :
    intCodec.dec (.ofList [0x80, 0xff, 0xff, 0xff, 0xff, 0xff, 0xff, 0xff, 0xff, 0xff]) 0 = some (128, 1) ∧
    128 ≤ (128 : Word).toNat ∧
    intCodec.dec (.ofList [0x80, 0xff, 0xff, 0xff, 0xff, 0xff, 0xff, 0xff, 0xff, 0xff]) (0 + 1) =
      some (0xFFFFFFFFFFFFFFFF, 9) ∧
    (0xFFFFFFFFFFFFFFFF : Word).toNat = 2 ^ 64 - 1 ∧
    (ByteSeq.ofList [0x80, 0xff, 0xff, 0xff, 0xff, 0xff, 0xff, 0xff, 0xff, 0xff]).len < 2 ^ 64 := by decide

/-- E5, E10. -/
theorem witness_EncodedRecordSize :
    encodeRecord intCodec 8 [0xaa, 0xbb] = .ok [0x08, 0xaa, 0xbb] ∧ (8 : Word).toNat < 128 ∧
    encodeRecord intCodec 128 [0xde, 0xad, 0xbe] = .ok [0x80, 0x03, 0xde, 0xad, 0xbe] ∧ 128 ≤ (128 : Word).toNat := by
  decide

/-- E10, E13. -/
theorem witness_EncodedRecordDecodesBack :
    [(0x77 : Byte), 0x88].length < 2 ^ 64 ∧
    encodeRecord intCodec 248 [0x77, 0x88] = .ok [0xf8, 0xf8, 0x02, 0x77, 0x88] := by decide

theorem witness_AcceptedBytesEncodeExactlyOneRecord :
    decodeOne intCodec (.ofList [0xf8, 0xf8, 0x02, 0x77, 0x88]) 0 = .ok ⟨248, 2, 3, 5⟩ ∧
    (⟨248, 2, 3, 5⟩ : Header).next = [(0xf8 : Byte), 0xf8, 0x02, 0x77, 0x88].length ∧
    [(0x77 : Byte), 0x88].length < 2 ^ 64 ∧
    encodeRecord intCodec 248 [0x77, 0x88] = .ok [0xf8, 0xf8, 0x02, 0x77, 0x88] := by decide

/-- Each row at the boundary: its value just fits, its value is one byte short. -/
theorem witness_ImpliedRecordsOfClassesZeroToSeven : ∀ row ∈ impliedRowsLow,
    0 + (intCodec.enc (BitVec.ofNat 64 (row.firstType + (7 : BitVec 3).toNat))).length + row.length ≤
      (boundZeros [] (1 + row.length)).buflen.toNat ∧
    (boundZeros [] row.length).buflen.toNat <
      0 + (intCodec.enc (BitVec.ofNat 64 (row.firstType + (7 : BitVec 3).toNat))).length + row.length := by decide

theorem witness_ImpliedRecordsOfClassesEightToFifteen : ∀ row ∈ impliedRowsHigh,
    0 + (intCodec.enc (BitVec.ofNat 64 (row.firstType + (7 : BitVec 3).toNat))).length + row.length ≤
      (boundZeros [] (1 + row.length)).buflen.toNat ∧
    (boundZeros [] row.length).buflen.toNat <
      0 + (intCodec.enc (BitVec.ofNat 64 (row.firstType + (7 : BitVec 3).toNat))).length + row.length := by decide

/-- V10; V18 (just fits); V18 one byte short; and V13 for `REC.XM`. -/
theorem witness_ExplicitRecords :
    intCodec.dec (bound [0x80]).buf (0 + (intCodec.enc 128).length) = none ∧
    intCodec.dec (bound [0xf7, 0x02, 0xaa, 0xbb]).buf (0 + (intCodec.enc 247).length) = some (2, 1) ∧
    0 + (intCodec.enc 247).length + 1 + (2 : Word).toNat = (bound [0xf7, 0x02, 0xaa, 0xbb]).buflen.toNat ∧
    intCodec.dec (bound [0xf7, 0x02, 0xaa]).buf (0 + (intCodec.enc 247).length) = some (2, 1) ∧
    (bound [0xf7, 0x02, 0xaa]).buflen.toNat + 1 = 0 + (intCodec.enc 247).length + 1 + (2 : Word).toNat ∧
    intCodec.dec (bound [0xf8, 0xf8]).buf (0 + (intCodec.enc 248).length) = none ∧
    intCodec.dec (bound [0xf8, 0xf8, 0x03, 1, 2, 3]).buf (0 + (intCodec.enc 248).length) = some (3, 1) ∧
    0 + (intCodec.enc 248).length + 1 + (3 : Word).toNat = (bound [0xf8, 0xf8, 0x03, 1, 2, 3]).buflen.toNat ∧
    intCodec.dec (bound [0xf8, 0xf8, 0x03]).buf (0 + (intCodec.enc 248).length) = some (3, 1) ∧
    (bound [0xf8, 0xf8, 0x03]).buflen.toNat < 0 + (intCodec.enc 248).length + 1 + (3 : Word).toNat := by decide

theorem witness_CommandsRunTheRecordTheyFind :
    (bound [0x08, 0xaa, 0xbb]).halt = false ∧ (bound [0x08, 0xaa, 0xbb]).cursor ≠ (bound [0x08, 0xaa, 0xbb]).buflen ∧
    decodeRecordAt intCodec .scan (bound [0x08, 0xaa, 0xbb]).buf (bound [0x08, 0xaa, 0xbb]).cursor.toNat =
      .ok (.recI1 .scan 0) ∧
    decodeRecordAt intCodec (.peek 0) halted7.buf (0 : Offset).toNat = .ok (.recI1 (.peek 0) 0) ∧
    beyond7.halt = false ∧ beyond7.cursor ≠ beyond7.buflen ∧
    decodeRecordAt intCodec .scan beyond7.buf beyond7.cursor.toNat = .error .malformedTypeField ∧
    decodeRecordAt intCodec (.peek 3) halted7.buf (3 : Offset).toNat = .error .malformedTypeField := by decide

theorem witness_BindBindsTheBuffer :
    ([] : List Byte).length < 2 ^ 64 ∧ [(0x08 : Byte), 0xaa, 0xbb].length < 2 ^ 64 := by decide

theorem witness_BindOutsideTheWidthIsRefused : 2 ^ 64 ≤ (List.replicate (2 ^ 64) (0 : Byte)).length := by
  simp [-Nat.reducePow]

theorem witness_NextWhileHaltedWritesNothing : halted7.halt = true := by decide

/-- After the last record, and on the empty buffer. -/
theorem witness_NextAtTheEndAnswersEnd :
    yielded8.halt = false ∧ yielded8.cursor = yielded8.buflen ∧
    State.reset.halt = false ∧ State.reset.cursor = State.reset.buflen := by decide

/-- H5, and H18 for the error. -/
theorem witness_NextYieldsTheRecordOrHalts :
    (bound [0x08, 0xaa, 0xbb]).halt = false ∧ (bound [0x08, 0xaa, 0xbb]).cursor ≠ (bound [0x08, 0xaa, 0xbb]).buflen ∧
    decodeOne intCodec (bound [0x08, 0xaa, 0xbb]).buf (bound [0x08, 0xaa, 0xbb]).cursor.toNat = .ok ⟨8, 2, 1, 3⟩ ∧
    (bound [0x00]).halt = false ∧ (bound [0x00]).cursor ≠ (bound [0x00]).buflen ∧
    decodeOne intCodec (bound [0x00]).buf (bound [0x00]).cursor.toNat = .error .truncatedValue := by decide

/-- H10. -/
theorem witness_NextBeyondTheEndHalts : beyond7.halt = false ∧ beyond7.buflen < beyond7.cursor := by decide

/-- H12, H20. -/
theorem witness_DecodeAtReportsTheRecordOrTheError :
    decodeOne intCodec halted7.buf (0 : Offset).toNat = .ok ⟨8, 2, 1, 3⟩ ∧
    decodeOne intCodec (bound [0x00]).buf (0 : Offset).toNat = .error .truncatedValue := by decide

/-- Issued to a running scanner, and to a halted one. -/
theorem witness_DecodeAtIsOutsideTheScan :
    (∃ t, exec (.decodeAt 0) (bound [0x08, 0xaa, 0xbb]) = .next t) ∧ (bound [0x08, 0xaa, 0xbb]).halt = false ∧
    (∃ t, exec (.decodeAt 0) halted7 = .next t) ∧ halted7.halt = true :=
  ⟨⟨_, rfl⟩, rfl, ⟨_, rfl⟩, rfl⟩

/-- E1, E2, E10, and a value that is too long. -/
theorem witness_EncodeRecordAnswersAndTouchesNoRegister :
    ([(0xaa : Byte)].length < 2 ^ 64 ∧ (7 : Word).toNat < 128 ∧ [(0xaa : Byte)].length = 2 ^ ((7 : Word).toNat / 8)) ∧
    [(0xaa : Byte), 0xbb].length ≠ 2 ^ ((7 : Word).toNat / 8) ∧ 128 ≤ (128 : Word).toNat ∧
    2 ^ 64 ≤ (List.replicate (2 ^ 64) (0 : Byte)).length := by
  refine ⟨by decide, by decide, by decide, ?_⟩
  simp [-Nat.reducePow]

theorem witness_StatusWordLayout :
    halted7.kind ≠ .record ∧ yielded8.kind = .record ∧ yielded8.result = some ⟨8, 2, 1, 3⟩ := by decide

theorem witness_RegisterReadsGiveTheRegisters :
    yielded8.kind = .record ∧ yielded8.result = some ⟨8, 2, 1, 3⟩ ∧ 6 ≤ 6 ∧ 6 < 7 := by decide

/-- `NEXT` on a record, its response of code 1. -/
theorem witness_ResponseCodesMatchTheKindLeftBehind :
    Instr.next.commandWord = some ⟨0x03, 0, []⟩ ∧
    ∃ t, exec .next (bound [0x08, 0xaa, 0xbb]) = .next t ∧ t.reply = some (.response (.record ⟨8, 2, 1, 3⟩)) ∧
      (Response.record ⟨8, 2, 1, 3⟩).code ≤ 3 :=
  ⟨rfl, _, rfl, rfl, by decide⟩

/-- One buffer per error code, and one without. -/
theorem witness_ErrorCausesAndCodes :
    (∃ t, exec (.decodeAt 3) halted7 = .next t ∧ t.errCode = 1) ∧
    (∃ t, exec (.decodeAt 0) (bound [0x80]) = .next t ∧ t.errCode = 2) ∧
    (∃ t, exec (.decodeAt 0) (bound [0x00]) = .next t ∧ t.errCode = 3) ∧
    (∃ t, exec (.decodeAt 0) halted7 = .next t ∧ t.errCode = 0) :=
  ⟨⟨_, rfl, rfl⟩, ⟨_, rfl, rfl⟩, ⟨_, rfl, rfl⟩, ⟨_, rfl, rfl⟩⟩

theorem witness_IdleBlockDoesNothing : State.reset.inbox = [] := rfl

theorem witness_StepRunsTheDecodedCommand : decode (.command ⟨0x03, 0, []⟩) = .ok .next := by decide

theorem witness_EveryStepCompletes :
    let s : State := { halted7 with inbox := [.command ⟨0x01, 0, [0x08]⟩] }
    ∀ c, s.inbox.head? = some (.command c) → c.data.length < 2 ^ 64 := by
  rintro s c ⟨⟩
  decide

/-- The invariant in a state with a yielded record. -/
theorem witness_inv_record : Inv yielded8 where
  memoryCanonical := by decide
  resultIffRecord := by decide
  errIffError := by decide
  resultDecoded := by
    rintro r ⟨⟩
    exact ⟨0, ⟨8, 2, 1, 3⟩, by decide, by decide, by decide⟩
  endMeansAtEnd := by decide
  haltMeansFailing := nofun

/-- The invariant in a halted state. -/
theorem witness_inv_halted : Inv halted7 where
  memoryCanonical := by decide
  resultIffRecord := by decide
  errIffError := by decide
  resultDecoded := by rintro r ⟨⟩
  endMeansAtEnd := by decide
  haltMeansFailing := fun _ => ⟨by decide, .malformedInteger .type, by decide⟩

/-- The invariant does not look at the inbox. -/
theorem inv_of_inbox {s : State} (h : Inv s) (inbox : List HostEvent) : Inv { s with inbox := inbox } :=
  ⟨h.memoryCanonical, h.resultIffRecord, h.errIffError, h.resultDecoded, h.endMeansAtEnd, h.haltMeansFailing⟩

theorem witness_EveryStepKeepsTheInvariant :
    Inv { yielded8 with inbox := [.command ⟨0x03, 0, []⟩] } ∧
    ∃ t, step { yielded8 with inbox := [.command ⟨0x03, 0, []⟩] } = .next t :=
  ⟨inv_of_inbox witness_inv_record _, _, rfl⟩

theorem witness_ValidResultBounds : Inv yielded8 ∧ yielded8.kind = .record := ⟨witness_inv_record, rfl⟩

/-- A `SEEK` to the end itself. -/
theorem witness_CursorStaysInsideWithoutASeekBeyond :
    let s : State := { yielded8 with inbox := [.command ⟨0x02, 3, []⟩] }
    s.cursor ≤ s.buflen ∧ (∃ t, step s = .next t) ∧
    (∀ c, s.inbox.head? = some (.command c) → c.code = 0x02 → c.off ≤ s.buflen) := by
  refine ⟨by decide, ⟨_, rfl⟩, ?_⟩
  rintro c ⟨⟩
  decide

/-- A failing `NEXT` sets the halt; a `SEEK` and a `BIND` clear it; the third clause is H10; `DECODE_AT` while halted. -/
theorem witness_HaltIsSetAndClearedOnlyAsStated :
    (∃ t, step { beyond7 with inbox := [.command ⟨0x03, 0, []⟩] } = .next t ∧ beyond7.halt = false ∧ t.halt = true) ∧
    (∃ t, step { halted7 with inbox := [.command ⟨0x02, 7, []⟩] } = .next t ∧ halted7.halt = true ∧ t.halt = false) ∧
    (beyond7.cursor ≠ beyond7.buflen ∧
      decodeOne intCodec beyond7.buf beyond7.cursor.toNat = .error (.malformedInteger .type)) ∧
    (∃ t, step { halted7 with inbox := [.command ⟨0x01, 0, []⟩] } = .next t) ∧
    (∃ t, step { halted7 with inbox := [.reset] } = .next t) ∧ (∃ t, exec (.decodeAt 0) halted7 = .next t) :=
  ⟨⟨_, rfl, rfl, rfl⟩, ⟨_, rfl, rfl, rfl⟩, ⟨by decide, by decide⟩, ⟨_, rfl⟩, ⟨_, rfl⟩, ⟨_, rfl⟩⟩

theorem witness_OnlyBindChangesTheBuffer :
    ∃ t, step { halted7 with inbox := [.command ⟨0x01, 0, [0x08]⟩] } = .next t ∧ t.mem ≠ halted7.mem :=
  ⟨_, rfl, by decide⟩

/-- Each clause: `ENCODE_RECORD`, `DECODE_AT`, a record outside the scan, `NEXT` and a record in it. -/
theorem witness_FramesOfDecodesAndOfSeek :
    (∀ b, Instr.next ≠ .bind b) ∧ (∃ t, exec .next (bound [0x08, 0xaa, 0xbb]) = .next t ∧ t.cursor = 3) ∧
    (∃ t, exec .next beyond7 = .next t ∧ t.halt = true) ∧ (∃ t, exec (.decodeAt 0) halted7 = .next t) ∧
    (∃ t, exec (.encodeRecord 0 [0xaa]) halted7 = .next t) ∧
    (Instr.recI1 (.peek 0) 0).wireType = some (.peek 0, 8) ∧ (∃ t, exec (.recI1 (.peek 0) 0) halted7 = .next t) ∧
    (Instr.recI1 .scan 0).wireType = some (.scan, 8) ∧
    (∃ t, exec (.recI1 .scan 0) (bound [0x08, 0xaa, 0xbb]) = .next t ∧ t.cursor = 3) :=
  ⟨by simp, ⟨_, rfl, rfl⟩, ⟨_, rfl, rfl⟩, ⟨_, rfl⟩, ⟨_, rfl⟩, by decide, ⟨_, rfl⟩, by decide, ⟨_, rfl, rfl⟩⟩

/-- Two states that differ in what the last command left behind only. -/
theorem witness_NoHiddenState :
    SameScan (bound [0x08, 0xaa, 0xbb]) { yielded8 with cursor := 0 } ∧ (bound [0x08, 0xaa, 0xbb]).halt = false ∧
    (∃ t, exec .next (bound [0x08, 0xaa, 0xbb]) = .next t) ∧ (∃ t, exec .next { yielded8 with cursor := 0 } = .next t) ∧
    SameBytes halted7.buf yielded8.buf ∧ (∃ t, exec (.decodeAt 0) halted7 = .next t) ∧
    (∃ t, exec (.decodeAt 0) yielded8 = .next t) :=
  ⟨⟨⟨rfl, fun _ _ => rfl⟩, rfl, rfl⟩, rfl, ⟨_, rfl⟩, ⟨_, rfl⟩, ⟨rfl, fun _ _ => rfl⟩, ⟨_, rfl⟩, ⟨_, rfl⟩⟩

theorem witness_HaltedRecordFailsOnEveryVisit : Inv halted7 ∧ halted7.halt = true := ⟨witness_inv_halted, rfl⟩

/-- Two instances, their steps interleaved. -/
theorem witness_InstancesAreIndependent :
    ∃ ss', runSchedule [0, 1, 0]
      [{ bound [0x08, 0xaa, 0xbb] with inbox := [.command ⟨0x03, 0, []⟩, .read 0] },
       { halted7 with inbox := [.command ⟨0x04, 0, []⟩] }] = .next ss' ∧
      ss'.map (·.reply) = [some (.value 3), some (.response (.record ⟨8, 2, 1, 3⟩))] :=
  ⟨_, rfl, rfl⟩

/-- The end, an error, and a record. -/
theorem witness_ScanFromIsTotalAndMeetsItsEquations :
    (2 : Nat) = (ByteSeq.ofList [0x00, 0xaa]).len ∧
    (3 ≠ (ByteSeq.ofList [0x00, 0xaa]).len ∧
      decodeOne intCodec (.ofList [0x00, 0xaa]) 3 = .error (.malformedInteger .type)) ∧
    (0 ≠ (ByteSeq.ofList [0x00, 0xaa]).len ∧ decodeOne intCodec (.ofList [0x00, 0xaa]) 0 = .ok ⟨0, 1, 1, 2⟩) := by decide

theorem witness_NextsYieldTheScan :
    (bound [0x08, 0xaa, 0xbb]).halt = false ∧
    scanFrom intCodec (bound [0x08, 0xaa, 0xbb]).buf (bound [0x08, 0xaa, 0xbb]).cursor.toNat =
      some ([⟨8, 2, 1, 3⟩], .done) ∧
    yielded8.halt = false ∧ scanFrom intCodec yielded8.buf yielded8.cursor.toNat = some ([], .done) ∧
    beyond7.halt = false ∧
    scanFrom intCodec beyond7.buf beyond7.cursor.toNat = some ([], .failed (.malformedInteger .type) 7) := by decide

/-- P2's first two records. -/
theorem witness_ScanSkipsWithoutUnderstanding :
    (∀ r ∈ [((128 : Word), [(0xde : Byte), 0xad, 0xbe]), (5, [0x11])], r.2.length < 2 ^ 64) ∧
    encodeStream intCodec [(128, [0xde, 0xad, 0xbe]), (5, [0x11])] =
      .ok [0x80, 0x03, 0xde, 0xad, 0xbe, 0x05, 0x11] := by decide

/-- P3's good prefix, as far as its truncated tail. -/
theorem witness_AppendedBytesKeepTheGoodPrefix :
    scan intCodec (.ofList [0x08, 0xaa, 0xbb, 0x80, 0x0a, 0x10]) = some ([⟨8, 2, 1, 3⟩], .failed .truncatedValue 3) := by
  decide

end Sys2Proof.Tests
end

namespace Sys2Proof.Machine

/-! # The state of a run (10_state.md): proofs of the family's statements

First what one step and one instruction can do, each said once; then the invariant, `STATUS` and the register reads,
and the frames. -/

/-! ## What one step can do -/

theorem decodeCommand_error {c : Command} {r : DecodeReject} (h : decode (.command c) = .error r) :
    c.code ≠ 0x01 ∧ c.code ≠ 0x02 ∧ c.code ≠ 0x03 ∧ c.code ≠ 0x04 := by
  simp only [decode, decodeCommand] at h
  split_ifs at h
  exact ⟨‹_›, ‹_›, ‹_›, ‹_›⟩

/-- The next states of a step, one constructor per action of the host and branch of its meaning; `step_next` says that
there are no others. -/
inductive StepTo (s : State) : State → Prop where
  | idle (hin : s.inbox = []) : StepTo s s
  | reset (rest) (hin : s.inbox = .reset :: rest) : StepTo s { s with inbox := rest }.afterReset
  | read (n rest) (hin : s.inbox = .read n :: rest) : StepTo s (runRead n { s with inbox := rest })
  | bind (c rest) (hin : s.inbox = .command c :: rest) (hc : c.code = 0x01) :
      StepTo s ((({ s with inbox := rest }.bindBuffer c.data).setCursor 0).clearScan.answer (.response .ok))
  | seek (c rest) (hin : s.inbox = .command c :: rest) (hc : c.code = 0x02) :
      StepTo s (({ s with inbox := rest }.setCursor c.off).clearScan.answer (.response .ok))
  | nextHalted (c rest) (hin : s.inbox = .command c :: rest) (hc : c.code = 0x03) (hh : s.halt = true) :
      StepTo s ({ s with inbox := rest }.answer (.response .halted))
  | nextAtEnd (c rest) (hin : s.inbox = .command c :: rest) (hc : c.code = 0x03) (hh : s.halt = false)
      (hend : s.cursor = s.buflen) : StepTo s ({ s with inbox := rest }.putEnd.answer (.response .atEnd))
  | nextDecodes (c rest) (hin : s.inbox = .command c :: rest) (hc : c.code = 0x03) (hh : s.halt = false)
      (hend : s.cursor ≠ s.buflen) :
      StepTo s (deliver .scan (decodeOne intCodec s.buf s.cursor.toNat) { s with inbox := rest })
  | decodeAt (c rest) (hin : s.inbox = .command c :: rest) (hc : c.code = 0x04) :
      StepTo s (deliver (.peek c.off) (decodeOne intCodec s.buf c.off.toNat) { s with inbox := rest })
  | refused (c rest) (hin : s.inbox = .command c :: rest)
      (hc : c.code ≠ 0x01 ∧ c.code ≠ 0x02 ∧ c.code ≠ 0x03 ∧ c.code ≠ 0x04) :
      StepTo s ({ s with inbox := rest }.answer (.response .refused))

theorem execBind_next {b : List Byte} {s t : State} (h : exec (.bind b) s = .next t) :
    t = ((s.bindBuffer b).setCursor 0).clearScan.answer (.response .ok) := by
  simp only [exec, execBind] at h
  split_ifs at h
  cases h
  rfl

/-- Every next state of a step is one of `StepTo`. -/
theorem step_next {s t : State} (h : step s = .next t) : StepTo s t := by
  rcases step_cases s with ⟨hin, hs⟩ | ⟨rest, hin, hs⟩ | ⟨n, rest, hin, hs⟩ | ⟨c, rest, i, hin, hd, hs⟩ |
      ⟨c, rest, r, hin, hd, hs⟩ <;> rw [hs] at h
  · cases h; exact .idle hin
  · cases h; exact .reset rest hin
  · cases h; exact .read n rest hin
  · rcases decodeCommand_ok hd with ⟨hc, rfl⟩ | ⟨hc, rfl⟩ | ⟨hc, rfl⟩ | ⟨hc, rfl⟩
    · obtain rfl := execBind_next h
      exact .bind c rest hin hc
    · cases h; exact .seek c rest hin hc
    · rcases execNext_cases { s with inbox := rest } with ⟨hh, hx⟩ | ⟨hh, hend, hx⟩ | ⟨hh, hend, hx⟩ <;>
        rw [hx] at h <;> cases h
      · exact .nextHalted c rest hin hc hh
      · exact .nextAtEnd c rest hin hc hh hend
      · exact .nextDecodes c rest hin hc hh hend
    · cases h; exact .decodeAt c rest hin hc
  · cases h; exact .refused c rest hin (decodeCommand_error hd)

/-! ## The registers that a decode writes -/

section Deliver

variable (site : Site) (e : DecodeError) (s : State)

@[simp] theorem yielded_kind (r : Result) : (yielded site r s).kind = .record := rfl
@[simp] theorem yielded_halt (r : Result) : (yielded site r s).halt = s.halt := rfl
@[simp] theorem yielded_cursor_scan (r : Result) : (yielded .scan r s).cursor = r.rNext := rfl
@[simp] theorem failed_kind : (failed site e s).kind = .error := rfl
@[simp] theorem failed_halt_scan : (failed .scan e s).halt = true := rfl
@[simp] theorem failed_cursor : (failed site e s).cursor = s.cursor := rfl

theorem siteOffset_lt : Site.offset site s < 2 ^ Config.offw := by
  cases site with
  | scan => exact s.cursor.isLt
  | peek off => exact off.isLt

end Deliver

/-- A decode in the scan changes `CURSOR` only with a record and `HALT` only with an error (R174, R247). -/
theorem deliver_scan_changes (d : Except DecodeError Header) (s : State) :
    ((deliver .scan d s).cursor ≠ s.cursor → (deliver .scan d s).kind = .record) ∧
    ((deliver .scan d s).halt ≠ s.halt → (deliver .scan d s).kind = .error ∧ (deliver .scan d s).halt = true) := by
  cases d <;> simp

/-! ## Where a decoded record lies -/

/-- R153. -/
theorem decodeOne_bounds {C : IntCodec} (hC : C.Conforms) {B : ByteSeq} {off : Nat} {h : Header}
    (hd : decodeOne C B off = .ok h) :
    off < h.vstart ∧ h.vstart ≤ h.next ∧ h.next ≤ B.len ∧ h.next = h.vstart + h.length.toNat := by
  obtain ⟨hat, hfit, hnext⟩ := decodeOne_ok hd
  obtain ⟨hoff, hend, -⟩ := hat.bounds hC
  omega

/-- The result registers hold the header's offsets exactly: both fit in `OFFW` bits (R32, R153). -/
theorem toResult_offsets {s : State} {off : Nat} {h : Header} (hd : decodeOne intCodec s.buf off = .ok h) :
    h.toResult.rVstart.toNat = h.vstart ∧ h.toResult.rNext.toNat = h.next := by
  obtain ⟨-, hv, hn, -⟩ := decodeOne_bounds intCodec_conforms hd
  have hlen := s.buf_len_lt
  exact ⟨toNat_ofNat_of_lt _ (by omega), toNat_ofNat_of_lt _ (by omega)⟩

/-! ## The invariant of a run -/

/-- The invariant speaks of the spec's own registers and memory only. -/
theorem Inv.frame {s : State} (hs : Inv s) (inbox : List HostEvent) (reply : Option Reply) (freeCount : Nat) :
    Inv { s with inbox := inbox, reply := reply, freeCount := freeCount } :=
  ⟨hs.memoryCanonical, hs.resultIffRecord, hs.errIffError, hs.resultDecoded, hs.endMeansAtEnd, hs.haltMeansFailing⟩

/-- With `STATUS` clear and the result registers empty only the memory is left to be asked about: so after reset, `BIND`
and `SEEK` (R250). -/
theorem Inv.of_cleared {s : State} (hmem : Memory.wf s.mem) (hkind : s.kind = .none) (herr : s.err = none)
    (hhalt : s.halt = false) (hres : s.result = none) : Inv s where
  memoryCanonical := hmem
  resultIffRecord := by simp [hres, hkind]
  errIffError := by simp [herr, hkind]
  resultDecoded := by simp [hres]
  endMeansAtEnd := by simp [hkind]
  haltMeansFailing := by simp [hhalt]

/-- A scanner that is not halted and stands at the end answers `END` (R178). -/
theorem Inv.putEnd {s : State} (hs : Inv s) (hhalt : s.halt = false) (hend : s.cursor = s.buflen) : Inv s.putEnd where
  memoryCanonical := hs.memoryCanonical
  resultIffRecord := by simp
  errIffError := by simp
  resultDecoded := by simp
  endMeansAtEnd _ := ⟨hend, hhalt⟩
  haltMeansFailing := by simp [hhalt]

/-- A decode at either site keeps the invariant: the result registers take a record of the buffer or lose their value,
and `HALT` is set only by a scan whose record at `CURSOR` has just failed. -/
theorem Inv.deliver {s : State} (hs : Inv s) (site : Site)
    (hscan : site = .scan → s.halt = false ∧ s.cursor ≠ s.buflen) :
    Inv (deliver site (decodeOne intCodec s.buf (Site.offset site s)) s) := by
  cases hd : decodeOne intCodec s.buf (Site.offset site s) with
  | ok h =>
    rw [deliver_ok]
    refine ⟨hs.memoryCanonical, by simp [yielded], by simp [yielded], ?_, by simp, fun hhalt => ?_⟩
    · rintro r ⟨⟩
      exact ⟨_, h, siteOffset_lt site s, hd, rfl⟩
    · cases site with
      | scan => exact absurd hhalt (by simp [hscan rfl])
      | peek off => exact hs.haltMeansFailing hhalt
  | error e =>
    rw [deliver_error]
    refine ⟨hs.memoryCanonical, by simp [failed], by simp [failed], by simp [failed], by simp, fun hhalt => ?_⟩
    cases site with
    | scan => exact ⟨(hscan rfl).2, e, hd⟩
    | peek off => exact hs.haltMeansFailing hhalt

/-- Settles O45, by the branches of a step. -/
theorem everyStepKeepsTheInvariant : Obligations.EveryStepKeepsTheInvariant := by
  intro s t hs hstep
  have htake (rest : List HostEvent) : Inv { s with inbox := rest } := hs.frame rest s.reply s.freeCount
  cases step_next hstep with
  | idle => exact hs
  | reset rest => exact .of_cleared hs.memoryCanonical rfl rfl rfl rfl
  | read n rest => exact hs.frame ..
  | bind c rest => exact .of_cleared (Memory.wf_ofBytesAt 0 c.data) rfl rfl rfl rfl
  | seek c rest => exact .of_cleared hs.memoryCanonical rfl rfl rfl rfl
  | nextHalted c rest => exact hs.frame ..
  | nextAtEnd c rest _ _ hhalt hend => exact ((htake rest).putEnd hhalt hend).frame ..
  | nextDecodes c rest _ _ hhalt hend => exact (htake rest).deliver .scan fun _ => ⟨hhalt, hend⟩
  | decodeAt c rest => exact (htake rest).deliver (.peek c.off) nofun
  | refused c rest => exact hs.frame ..

/-- Settles O44: nothing is listed and `STATUS` is clear. -/
theorem resetMeetsTheInvariant : Obligations.ResetMeetsTheInvariant :=
  Inv.of_cleared Memory.wf_nil rfl rfl rfl rfl

/-- Settles O46: the record the invariant speaks of lies inside the buffer. -/
theorem validResultBounds : Obligations.ValidResultBounds := by
  intro s hs hkind
  obtain ⟨r, hr⟩ := Option.isSome_iff_exists.1 (hs.resultIffRecord.2 hkind)
  obtain ⟨off, h, -, hd, rfl⟩ := hs.resultDecoded r hr
  obtain ⟨hv, hn⟩ := toResult_offsets hd
  obtain ⟨hoff, hle, hend, hnext⟩ := decodeOne_bounds intCodec_conforms hd
  obtain ⟨⟨n1, hdec, hlen⟩, -, -⟩ := decodeOne_ok hd
  rw [State.buf_len] at hend
  refine ⟨_, off, n1, hr, ?_⟩
  rw [hv, hn, Header.toResult_rType, Header.toResult_rLength]
  rcases hlen with ⟨ht, hl, hve⟩ | ⟨ht, n2, hl, hve⟩
  · exact ⟨hoff, hle, hend, hnext, by omega, fun _ => by rw [hl, impliedLength_toNat _ ht], hdec, fun _ => by omega,
      fun hge => by omega⟩
  · exact ⟨hoff, hle, hend, hnext, by omega, fun hlt => by omega, hdec, fun hlt => by omega,
      fun _ => ⟨n2, hl, by omega⟩⟩

/-! ## `CURSOR` and `HALT` -/

/-- A decode in the scan leaves `CURSOR` inside the buffer (R24, R153). -/
theorem deliver_scan_cursor_le {s : State} {off : Nat} (hs : s.cursor ≤ s.buflen) :
    (deliver .scan (decodeOne intCodec s.buf off) s).cursor ≤ s.buflen := by
  cases hd : decodeOne intCodec s.buf off with
  | ok h =>
    obtain ⟨-, -, hend, -⟩ := decodeOne_bounds intCodec_conforms hd
    rwa [deliver_ok, yielded_cursor_scan, BitVec.le_def, (toResult_offsets hd).2]
  | error e => rwa [deliver_error, failed_cursor]

/-- Settles O47, by the branches of a step. -/
theorem cursorStaysInsideWithoutASeekBeyond : Obligations.CursorStaysInsideWithoutASeekBeyond := by
  intro s t hs hstep hseek
  cases step_next hstep with
  | idle | read | nextHalted | nextAtEnd | refused => exact hs
  | reset => exact BitVec.le_refl 0
  | bind => exact Nat.zero_le _
  | seek c rest hin hc => exact hseek c (by simp [hin]) hc
  | nextDecodes c rest =>
    rw [deliver_buflen]
    exact deliver_scan_cursor_le (s := { s with inbox := rest }) hs
  | decodeAt c rest =>
    rw [deliver_buflen, (deliver_peek_scan ..).1]
    exact hs

/-- `HALT` turns 1 only by a `NEXT` that leaves `KIND = ERROR` (R29). -/
theorem step_sets_halt {s t : State} (hstep : step s = .next t) (hs : s.halt = false) (ht : t.halt = true) :
    (∃ c, s.inbox.head? = some (.command c) ∧ c.code = 0x03) ∧ t.kind = .error := by
  cases step_next hstep with
  | idle | read | nextAtEnd | refused | nextHalted => exact absurd ht (by simp [hs, runRead])
  | reset | bind | seek => cases ht
  | nextDecodes c rest hin hc =>
    exact ⟨⟨c, by simp [hin], hc⟩, ((deliver_scan_changes ..).2 (by rw [ht]; simp [hs])).1⟩
  | decodeAt c rest =>
    rw [(deliver_peek_scan ..).2] at ht
    exact absurd ht (by simp [hs])

/-- `HALT` turns 0 only by reset, `BIND` or `SEEK` (R29). -/
theorem step_clears_halt {s t : State} (hstep : step s = .next t) (hs : s.halt = true) (ht : t.halt = false) :
    s.inbox.head? = some .reset ∨ ∃ c, s.inbox.head? = some (.command c) ∧ (c.code = 0x01 ∨ c.code = 0x02) := by
  cases step_next hstep with
  | reset rest hin => exact .inl (by simp [hin])
  | bind c rest hin hc => exact .inr ⟨c, by simp [hin], .inl hc⟩
  | seek c rest hin hc => exact .inr ⟨c, by simp [hin], .inr hc⟩
  | idle | read | refused | nextHalted => exact absurd ht (by simp [hs, runRead])
  | nextAtEnd _ _ _ _ hh | nextDecodes _ _ _ _ hh => simp [hs] at hh
  | decodeAt c rest =>
    rw [(deliver_peek_scan ..).2] at ht
    exact absurd ht (by simp [hs])

/-- Reset, `BIND` and `SEEK` leave `HALT` 0 (R29, R250). -/
theorem step_halt_of_clearing {s t : State} (hstep : step s = .next t) (hin : s.inbox.head? = some .reset ∨
    ∃ c, s.inbox.head? = some (.command c) ∧ (c.code = 0x01 ∨ c.code = 0x02)) : t.halt = false := by
  cases step_next hstep with
  | reset | bind | seek => rfl
  | idle hin' | read _ _ hin' => simp [hin'] at hin
  | nextHalted _ _ hin' hc | nextAtEnd _ _ hin' hc | nextDecodes _ _ hin' hc | decodeAt _ _ hin' hc =>
    simp [hin', hc] at hin
  | refused c rest hin' hc =>
    obtain ⟨hbind, hseek, -⟩ := hc
    have hcode : c.code = 0x01 ∨ c.code = 0x02 := by simpa [hin'] using hin
    exact (not_or.2 ⟨hbind, hseek⟩ hcode).elim

/-- A decode outside the scan runs the same with `HALT` either way (R158). -/
theorem deliver_peek_setHalt (off : Offset) (d : Except DecodeError Header) (s : State) (b : Bool) :
    deliver (.peek off) d { s with halt := b } = { deliver (.peek off) d s with halt := b } := by
  cases d <;> rfl

/-- Settles O48: one lemma for each direction, then `NEXT` and `DECODE_AT` by themselves. -/
theorem haltIsSetAndClearedOnlyAsStated : Obligations.HaltIsSetAndClearedOnlyAsStated := by
  refine ⟨fun s t => step_sets_halt, fun s t => step_clears_halt, fun s e hh hend hd => ?_,
    fun s t => step_halt_of_clearing, fun s hh => ?_, fun s t off b h => ?_⟩
  · refine ⟨failed .scan e s, ?_, rfl⟩
    simp [exec, execNext, hh, hend, hd]
  · simp [exec, execNext, hh, State.answer]
  · cases h
    exact ⟨(deliver_peek_scan ..).2, congrArg Host.Outcome.next (deliver_peek_setHalt ..)⟩

/-! ## Frames -/

/-- A record run by itself delivers some decode at its site (R134 to R151). -/
theorem exec_record {i : Instr} {site : Site} {type : Word} (h : i.wireType = some (site, type)) (s : State) :
    ∃ d, exec i s = .next (deliver site d s) := by
  cases i with
  | bind | seek | next | decodeAt | encodeRecord => cases h
  | _ => cases h; exact ⟨_, rfl⟩

/-- `ENCODE_RECORD` only answers (R220). -/
theorem execEncodeRecord_next {type : Word} {value : List Byte} {s t : State}
    (h : exec (.encodeRecord type value) s = .next t) : ∃ r, t = s.answer r := by
  simp only [exec, execEncodeRecord] at h
  split_ifs at h
  cases h
  exact ⟨_, rfl⟩

theorem keepsBuffer_deliver (site : Site) (d : Except DecodeError Header) (s : State) :
    KeepsBuffer s (deliver site d s) := by simp [KeepsBuffer]

theorem keepsBuffer_of_record {i : Instr} {site : Site} {type : Word} {s t : State}
    (hw : i.wireType = some (site, type)) (h : exec i s = .next t) : KeepsBuffer s t := by
  obtain ⟨d, hd⟩ := exec_record hw s
  rw [hd] at h
  cases h
  exact keepsBuffer_deliver site d s

/-- Only `BIND` writes the buffer (R53). -/
theorem exec_keepsBuffer {i : Instr} {s t : State} (hb : ∀ b, i ≠ .bind b) (h : exec i s = .next t) :
    KeepsBuffer s t := by
  cases i with
  | bind b => exact absurd rfl (hb b)
  | seek off => cases h; simp [KeepsBuffer]
  | next =>
    rcases execNext_cases s with ⟨-, hx⟩ | ⟨-, -, hx⟩ | ⟨-, -, hx⟩ <;> rw [hx] at h <;> cases h
    · simp [KeepsBuffer]
    · simp [KeepsBuffer]
    · exact keepsBuffer_deliver ..
  | decodeAt off => cases h; exact keepsBuffer_deliver ..
  | encodeRecord type value =>
    obtain ⟨r, rfl⟩ := execEncodeRecord_next h
    simp [KeepsBuffer]
  | _ => exact keepsBuffer_of_record rfl h

/-- `NEXT` changes `CURSOR` only with a record and `HALT` only with an error (R174, R247). -/
theorem execNext_changes {s t : State} (h : exec .next s = .next t) :
    (t.cursor ≠ s.cursor → t.kind = .record) ∧ (t.halt ≠ s.halt → t.kind = .error ∧ t.halt = true) := by
  rcases execNext_cases s with ⟨-, hx⟩ | ⟨-, -, hx⟩ | ⟨-, -, hx⟩ <;> rw [hx] at h <;> cases h
  · simp
  · simp
  · exact deliver_scan_changes ..

/-- Settles O50: the buffer by instruction, then the registers each kind of instruction leaves. -/
theorem framesOfDecodesAndOfSeek : Obligations.FramesOfDecodesAndOfSeek := by
  intro i s t hb h
  refine ⟨exec_keepsBuffer hb h, ?_, ?_, fun off type hw => ?_, ?_⟩
  · rintro type value rfl
    obtain ⟨r, rfl⟩ := execEncodeRecord_next h
    simp
  · rintro off rfl
    cases h
    exact deliver_peek_scan ..
  · obtain ⟨d, hd⟩ := exec_record hw s
    rw [hd] at h
    cases h
    exact deliver_peek_scan ..
  · rintro type (rfl | hw)
    · exact execNext_changes h
    · obtain ⟨d, hd⟩ := exec_record hw s
      rw [hd] at h
      cases h
      exact deliver_scan_changes ..

/-! ## No hidden state -/

/-- A decode depends on the bytes of the sequence only (R37, R115). -/
theorem decodeOne_congr {C : IntCodec} (hC : C.Conforms) {B B' : ByteSeq} (h : SameBytes B B') (off : Nat) :
    decodeOne C B off = decodeOne C B' off := by
  obtain ⟨hlen, hbyte⟩ := h
  have hdec (i : Nat) : C.dec B i = C.dec B' i := hC.readsInside B B' i hlen fun j _ => hbyte j
  simp only [decodeOne, hdec, hlen]

/-- What a decode leaves in the reply, `KIND`, `ERR` and the result registers comes from the decode alone. -/
theorem deliver_answers_alike (site : Site) (d : Except DecodeError Header) (s s' : State) :
    (deliver site d s).reply = (deliver site d s').reply ∧ (deliver site d s).kind = (deliver site d s').kind ∧
    (deliver site d s).err = (deliver site d s').err ∧ (deliver site d s).result = (deliver site d s').result := by
  cases d <;> simp [yielded, failed]

theorem SameScan.deliver {s s' : State} (h : SameScan s s') (d : Except DecodeError Header) :
    SameScan (deliver .scan d s) (deliver .scan d s') := by
  obtain ⟨hbuf, hcursor, hhalt⟩ := h
  refine ⟨by simpa using hbuf, ?_⟩
  cases d <;> simp [hcursor, hhalt]

theorem SameScan.buflen_eq {s s' : State} (h : SameScan s s') : s.buflen = s'.buflen :=
  BitVec.eq_of_toNat_eq h.1.1

/-- `NEXT` takes the same branch in two states that agree on what it reads, and decodes the same there. -/
theorem execNext_alike {s s' t t' : State} (hs : SameScan s s') (h : exec .next s = .next t)
    (h' : exec .next s' = .next t') :
    t.reply = t'.reply ∧ SameScan t t' ∧
    (s.halt = false → t.kind = t'.kind ∧ t.err = t'.err ∧ t.result = t'.result) := by
  have ⟨hbuf, hcursor, hhalt⟩ := hs
  have hdec := decodeOne_congr intCodec_conforms hbuf s.cursor.toNat
  simp only [exec, execNext, ← hhalt, ← hcursor, ← hs.buflen_eq, ← hdec] at h h'
  split_ifs at h h' with hh hend <;> cases h <;> cases h'
  · exact ⟨rfl, hs, by simp [hh]⟩
  · exact ⟨rfl, hs, fun _ => ⟨rfl, rfl, rfl⟩⟩
  · obtain ⟨hreply, hregs⟩ := deliver_answers_alike .scan (decodeOne intCodec s.buf s.cursor.toNat) s s'
    exact ⟨hreply, hs.deliver _, fun _ => hregs⟩

/-- Settles O51: equal buffers decode alike, and the answer comes from the decode. -/
theorem noHiddenState : Obligations.NoHiddenState := by
  refine ⟨fun s s' t t' => execNext_alike, fun s s' t t' off hbuf h h' => ?_⟩
  cases h
  cases h'
  rw [decodeOne_congr intCodec_conforms hbuf]
  exact deliver_answers_alike ..

/-! ## `STATUS` and the register reads -/

/-- The fields of a word put together as `STATUS` is (R26), for all their values. -/
theorem statusFields_layout : ∀ (expl halt : Bool) (err : BitVec 3) (kind : BitVec 2),
    let w := (0 : BitVec 1) ++ BitVec.ofBool expl ++ BitVec.ofBool halt ++ err ++ kind
    w.extractLsb' 0 2 = kind ∧ w.extractLsb' 2 3 = err ∧ w.getLsbD 5 = halt ∧ w.getLsbD 6 = expl ∧
    w.getLsbD 7 = false := by
  decide

theorem State.expl_of_not_record {s : State} (h : s.kind ≠ .record) : s.expl = false := by
  unfold State.expl
  split
  · exact absurd ‹_› h
  · rfl

theorem State.expl_of_record {s : State} {r : Result} (hk : s.kind = .record) (hr : s.result = some r) :
    s.expl = decide (128 ≤ r.rType.toNat) := by
  simp [State.expl, hk, hr]

/-- Settles O34: the word's layout, then the code of each field. -/
theorem statusWordLayout : Obligations.StatusWordLayout := by
  intro s
  obtain ⟨hkind, herr, hhalt, hexpl, hzero⟩ := statusFields_layout s.expl s.halt s.errCode s.kind.code
  refine ⟨hkind.trans ?_, herr.trans ?_, hhalt, hzero, fun hk => hexpl.trans (State.expl_of_not_record hk),
    fun r hk hr => hexpl.trans (State.expl_of_record hk hr)⟩
  · cases s.kind <;> rfl
  · unfold State.errCode
    rcases s.err with _ | (_ | _) | _ <;> rfl

theorem State.resultRegister_of_record {s : State} {r : Result} (hk : s.kind = .record) (hr : s.result = some r)
    (field : Result → Word) : (s.resultRegister field).1 = .value (field r) := by
  simp [State.resultRegister, hk, hr]

/-- A result register always hands over some value, whether it holds one or not (R205). -/
theorem State.resultRegister_value (s : State) (field : Result → Word) :
    ∃ x, (s.resultRegister field).1 = .value x := by
  unfold State.resultRegister
  split <;> exact ⟨_, rfl⟩

/-- The registers of R21 hand over a value. -/
theorem State.readRegister_value (s : State) {n : Nat} (h : n ≤ 6) : ∃ x, (s.readRegister n).1 = .value x := by
  match n, h with
  | 0, _ | 1, _ | 2, _ => exact ⟨_, rfl⟩
  | 3, _ | 4, _ | 5, _ | 6, _ => exact s.resultRegister_value _

theorem State.readRegister_refused (s : State) {n : Nat} (h : 6 < n) : (s.readRegister n).1 = .response .refused := by
  obtain ⟨k, rfl⟩ := Nat.exists_eq_add_of_le' h
  rfl

/-- Settles O35: the read's reply, register by register. -/
theorem registerReadsGiveTheRegisters : Obligations.RegisterReadsGiveTheRegisters := by
  intro s rest n
  refine ⟨(s.readRegister n).1, (s.readRegister n).2, ?_, ?_, ?_, ?_, fun r hk hr => ⟨?_, ?_, ?_, ?_⟩,
    s.readRegister_value, s.readRegister_refused⟩
  · rfl
  · rintro rfl; rfl
  · rintro rfl; rfl
  · rintro rfl; rfl
  all_goals rintro rfl; exact State.resultRegister_of_record hk hr _

/-- Settles O38: the empty buffer is at its end, and no type field stands in it. -/
theorem resetStateIsTheSpecs : Obligations.ResetStateIsTheSpecs := by
  have hempty : intCodec.dec State.reset.buf 0 = none := intCodec_conforms.failsPastEnd _ 0 (Nat.le_refl 0)
  refine ⟨rfl, rfl, rfl, rfl, rfl, rfl, rfl, rfl, rfl, ⟨_, rfl, rfl⟩,
    failed (.peek 0) (.malformedInteger .type) State.reset, ?_, rfl⟩
  exact congrArg (fun d => Host.Outcome.next (deliver (.peek 0) d State.reset)) (decodeOne_of_dec_none hempty)

end Sys2Proof.Machine

namespace Sys2Proof.Machine

/-! # The memory (20_memory.md): proofs of the family's statements

First which bytes a decode reads: the header's on success and on truncation, those from the offset on in any case. Then
what a step does to the buffer. -/

/-! ## The bytes a decode reads -/

/-- A list stands at the same place in any sequence that is long enough and has the same bytes there. -/
theorem hasAt_congr {B B' : ByteSeq} {off : Nat} {l : List Byte} (h : B.HasAt off l) (hlen : off + l.length ≤ B'.len)
    (hbyte : ∀ i, off ≤ i → i < off + l.length → B'.byte i = B.byte i) : B'.HasAt off l := by
  rw [ByteSeq.hasAt_iff] at h ⊢
  obtain ⟨-, hl⟩ := h
  refine ⟨hlen, fun i hi => ?_⟩
  rw [hbyte (off + i) (by omega) (by omega), hl i hi]

section SameLength

variable {C : IntCodec} {B B' : ByteSeq} {off : Nat}

/-- A header stands wherever its own bytes do. -/
theorem HeaderAt.congr (hC : C.Conforms) (hlen : B.len = B'.len) {type length : Word} {headerEnd : Nat}
    (h : HeaderAt C B off type length headerEnd)
    (hbyte : ∀ i, off ≤ i → i < headerEnd → B'.byte i = B.byte i) : HeaderAt C B' off type length headerEnd := by
  obtain ⟨himplied, rfl, hat⟩ := (headerAt_iff hC).1 h
  exact (headerAt_iff hC).2 ⟨himplied, rfl, hasAt_congr hat (hlen ▸ hat.1) hbyte⟩

/-- R54: once a header is read, the answer depends on the header's bytes and the buffer's length only. -/
theorem decodeOne_congr_of_headerAt (hC : C.Conforms) (hlen : B.len = B'.len) {type length : Word} {headerEnd : Nat}
    (h : HeaderAt C B off type length headerEnd)
    (hbyte : ∀ i, off ≤ i → i < headerEnd → B'.byte i = B.byte i) : decodeOne C B' off = decodeOne C B off := by
  rw [decodeOne_of_headerAt h, decodeOne_of_headerAt (h.congr hC hlen hbyte), hlen]

/-- No byte before the offset is read, whatever the answer (R115). -/
theorem decodeOne_congr_from (hC : C.Conforms) (hlen : B.len = B'.len)
    (hbyte : ∀ i, off ≤ i → i < B.len → B'.byte i = B.byte i) : decodeOne C B' off = decodeOne C B off := by
  have hdec (n : Nat) : C.dec B' (off + n) = C.dec B (off + n) :=
    (hC.readsInside B B' (off + n) hlen fun i hi hlt => (hbyte i (by omega) hlt).symm).symm
  have htype : C.dec B' off = C.dec B off := hdec 0
  simp only [decodeOne, htype, hdec, hlen]

end SameLength

/-- Settles O14: the record and both forms of truncation have read a header. -/
theorem onlyHeaderBytesMatter : Obligations.OnlyHeaderBytesMatter := by
  intro C hC B B' off hlen
  refine ⟨fun h hd hbyte => ?_, fun type n1 hd htype himplied hbyte => ?_,
    fun type n1 l n2 hd htype hexplicit hl hbyte => ?_, decodeOne_congr_from hC hlen⟩
  · obtain ⟨hat, -⟩ := decodeOne_ok hd
    rw [decodeOne_congr_of_headerAt hC hlen hat hbyte, hd]
  · have hat : HeaderAt C B off type _ (off + n1) := ⟨n1, htype, .inl ⟨himplied, rfl, rfl⟩⟩
    rw [decodeOne_congr_of_headerAt hC hlen hat hbyte, hd]
  · have hat : HeaderAt C B off type l (off + n1 + n2) := ⟨n1, htype, .inr ⟨hexplicit, n2, hl, rfl⟩⟩
    rw [decodeOne_congr_of_headerAt hC hlen hat hbyte, hd]

/-! ## What a step does to the buffer -/

/-- The bytes of the buffer are written by `BIND` only (R53). -/
theorem step_mem {s t : State} (hstep : step s = .next t) :
    (∃ c, s.inbox.head? = some (.command c) ∧ c.code = 0x01) ∨ t.mem = s.mem := by
  cases step_next hstep with
  | bind c rest hin hc => exact .inl ⟨c, by simp [hin], hc⟩
  | idle | reset | read | seek | nextHalted | nextAtEnd | refused => exact .inr rfl
  | nextDecodes | decodeAt => exact .inr (deliver_mem ..)

/-- `BUFLEN` is written by `BIND` and reset only (R25, R40). -/
theorem step_buflen {s t : State} (hstep : step s = .next t) :
    (∃ c, s.inbox.head? = some (.command c) ∧ c.code = 0x01) ∨ s.inbox.head? = some .reset ∨
      t.buflen = s.buflen := by
  cases step_next hstep with
  | bind c rest hin hc => exact .inl ⟨c, by simp [hin], hc⟩
  | reset rest hin => exact .inr (.inl (by simp [hin]))
  | idle | read | seek | nextHalted | nextAtEnd | refused => exact .inr (.inr rfl)
  | nextDecodes | decodeAt => exact .inr (.inr (deliver_buflen ..))

/-- A `BIND` at the head of the inbox is what the step runs (R92, R200). -/
theorem step_of_bind {s : State} {c : Command} {rest : List HostEvent} (hin : s.inbox = .command c :: rest)
    (hc : c.code = 0x01) : step s = exec (.bind c.data) { s with inbox := rest } := by
  simp [step, State.takeEvent, hin, runCommand, decode, decodeCommand, hc]

/-- After a `BIND` the memory lists the bytes bound and nothing else (R201, log 4). -/
theorem step_mem_of_bind {s t : State} {c : Command} (hstep : step s = .next t)
    (hin : s.inbox.head? = some (.command c)) (hc : c.code = 0x01) : t.mem = Memory.ofBytesAt 0 c.data := by
  obtain ⟨rest, hin⟩ := List.head?_eq_some_iff.1 hin
  rw [step_of_bind hin hc] at hstep
  rw [execBind_next hstep]
  rfl

/-- Nothing is listed beyond the end of the bytes bound. -/
theorem Memory.read_ofBytesAt_zero_of_le {b : List Byte} {a : Nat} (h : b.length ≤ a) :
    Memory.read (Memory.ofBytesAt 0 b) a = Config.unlistedByte := by
  have hread := Memory.read_ofBytesAt 0 b a
  rwa [Nat.zero_add, List.getD_eq_default _ _ h] at hread

/-- Settles O49: the writers of the buffer and of `BUFLEN`, then what `BIND` leaves beyond its bytes. -/
theorem onlyBindChangesTheBuffer : Obligations.OnlyBindChangesTheBuffer := by
  intro s t hstep
  refine ⟨step_mem hstep, step_buflen hstep, fun c hin hc a ha => ?_⟩
  rw [step_mem_of_bind hstep hin hc]
  exact Memory.read_ofBytesAt_zero_of_le ha

end Sys2Proof.Machine

namespace Sys2Proof.Machine

/-! # The encoding (30_encoding.md): proofs of the family's statements

First that the type map and the encoder are inverse to each other, on format I by class and slot, then for every record;
then the opcode table's rows as intervals of types; then the command codes. -/

/-! ## The type map and the encoder -/

/-- All the type map can do (R86). -/
theorem decodeType_cases (site : Site) (type : Word) :
    (type.toNat < 128 ∧ decodeType site type = decodeClass site (type.extractLsb' 3 4) (type.extractLsb' 0 3)) ∨
    (128 ≤ type.toNat ∧ type.toNat ≤ 247 ∧ decodeType site type = .recXS site type) ∨
    (248 ≤ type.toNat ∧ decodeType site type = .recXM site type) := by
  unfold decodeType
  split_ifs with himplied hxs
  · exact .inl ⟨himplied, rfl⟩
  · exact .inr (.inl ⟨Nat.le_of_not_lt himplied, Nat.le_of_lt_succ hxs, rfl⟩)
  · exact .inr (.inr ⟨Nat.le_of_not_lt hxs, rfl⟩)

/-- The class and the slot of a format-I type are the fields it is put together from (R84). -/
theorem decodeType_impliedType (site : Site) (cls : BitVec 4) (slot : BitVec 3) :
    decodeType site (impliedType cls slot) = decodeClass site cls slot := by
  have hcls := cls.isLt
  have hslot := slot.isLt
  have hfield : (impliedType cls slot).extractLsb' 3 4 = cls := by
    apply BitVec.eq_of_toNat_eq
    rw [BitVec.extractLsb'_toNat, impliedType_toNat, Nat.shiftRight_eq_div_pow]
    omega
  have hlow : (impliedType cls slot).extractLsb' 0 3 = slot := BitVec.extractLsb'_append_eq_right
  have htoNat := impliedType_toNat cls slot
  obtain ⟨-, hd⟩ | ⟨hge, -⟩ | ⟨hge, -⟩ := decodeType_cases site (impliedType cls slot)
  · rw [hd, hfield, hlow]
  · omega
  · omega

/-- A type below 128 has no bits but its class and its slot (R84). -/
theorem impliedType_extractLsb' {type : Word} (h : type.toNat < 128) :
    impliedType (type.extractLsb' 3 4) (type.extractLsb' 0 3) = type := by
  apply BitVec.eq_of_toNat_eq
  rw [impliedType_toNat, BitVec.extractLsb'_toNat, BitVec.extractLsb'_toNat, Nat.shiftRight_eq_div_pow,
    Nat.shiftRight_zero]
  omega

theorem decodeClass_wireType (site : Site) (cls : BitVec 4) (slot : BitVec 3) :
    (decodeClass site cls slot).wireType = some (site, impliedType cls slot) := by
  obtain ⟨k⟩ := cls
  fin_cases k <;> rfl

theorem decodeClass_wellFormed (site : Site) (cls : BitVec 4) (slot : BitVec 3) :
    (decodeClass site cls slot).WellFormed := by
  unfold decodeClass
  split <;> rfl

/-- The type map keeps the site and every bit of the type (R89). -/
@[simp] theorem decodeType_wireType (site : Site) (type : Word) :
    (decodeType site type).wireType = some (site, type) := by
  obtain ⟨himplied, hd⟩ | ⟨-, -, hd⟩ | ⟨-, hd⟩ := decodeType_cases site type <;> rw [hd]
  · rw [decodeClass_wireType, impliedType_extractLsb' himplied]
  · rfl
  · rfl

theorem decodeType_wellFormed (site : Site) (type : Word) : (decodeType site type).WellFormed := by
  obtain ⟨-, hd⟩ | ⟨hmin, hmax, hd⟩ | ⟨hmin, hd⟩ := decodeType_cases site type <;> rw [hd]
  · exact decodeClass_wellFormed ..
  · simp [Instr.WellFormed, Instr.wellFormed, hmin, hmax]
  · simp [Instr.WellFormed, Instr.wellFormed, hmin]

/-- A well-formed record is what its type decodes to. -/
theorem decodeType_of_wireType {i : Instr} {site : Site} {type : Word} (hwf : i.WellFormed)
    (h : i.wireType = some (site, type)) : decodeType site type = i := by
  cases i with
  | recXS site type =>
    cases h
    simp only [Instr.WellFormed, Instr.wellFormed, Bool.and_eq_true, decide_eq_true_eq] at hwf
    obtain ⟨hlt, -⟩ | ⟨-, -, hd⟩ | ⟨hge, -⟩ := decodeType_cases site type
    · omega
    · exact hd
    · omega
  | recXM site type =>
    cases h
    simp only [Instr.WellFormed, Instr.wellFormed, decide_eq_true_eq] at hwf
    obtain ⟨hlt, -⟩ | ⟨-, hle, -⟩ | ⟨-, hd⟩ := decodeType_cases site type
    · omega
    · omega
    · exact hd
  | bind | seek | next | decodeAt | encodeRecord => cases h
  | _ => cases h; exact decodeType_impliedType ..

theorem encode_of_wireType {i : Instr} {site : Site} {type : Word} (h : i.wireType = some (site, type)) :
    encode i = some (.record site type) := by
  cases i with
  | bind | seek | next | decodeAt | encodeRecord => cases h
  | _ => cases h; rfl

/-- What an encoding is: a record's site and type, or a command. -/
theorem encode_cases {i : Instr} {f : Fetched} (h : encode i = some f) :
    (∃ site type, i.wireType = some (site, type) ∧ f = .record site type) ∨
    (∃ c, i.commandWord = some c ∧ f = .command c) := by
  unfold encode at h
  split at h <;> cases h
  · exact .inr ⟨_, ‹_›, rfl⟩
  · exact .inl ⟨_, _, ‹_›, rfl⟩

theorem decode_commandWord {i : Instr} {c : Command} (h : i.commandWord = some c) : decode (.command c) = .ok i := by
  cases i with
  | bind | seek | next | decodeAt => cases h; rfl
  | _ => cases h

theorem encode_eq_none_iff (i : Instr) : encode i = none ↔ ∃ type value, i = .encodeRecord type value := by
  cases i with
  | encodeRecord type value => exact ⟨fun _ => ⟨type, value, rfl⟩, fun _ => rfl⟩
  | _ => exact ⟨nofun, nofun⟩

/-- Where `IntEnc(type)` stands, the record decoder reads the record of that type (R85). -/
theorem decodeRecordAt_of_hasAt {C : IntCodec} (hC : C.Conforms) (site : Site) {B : ByteSeq} {off : Nat} {type : Word}
    (h : B.HasAt off (C.enc type)) : decodeRecordAt C site B off = .ok (decodeType site type) := by
  simp only [decodeRecordAt, hC.dec_of_hasAt h, decode]

theorem encodeTypeField_of_wireType {C : IntCodec} {i : Instr} {site : Site} {type : Word}
    (h : i.wireType = some (site, type)) : encodeTypeField C i = C.enc type := by
  simp only [encodeTypeField, h]

/-- Settles O4: a record by the type map, alone and behind the codec; a command by its code. -/
theorem decodingAnEncodedInstructionGivesItBack : Obligations.DecodingAnEncodedInstructionGivesItBack := by
  refine ⟨fun i hwf f hf => ?_, fun C hC i site type hwf hw B off hat => ?_, encode_eq_none_iff⟩
  · obtain ⟨site, type, hw, rfl⟩ | ⟨c, hc, rfl⟩ := encode_cases hf
    · exact congrArg Except.ok (decodeType_of_wireType hwf hw)
    · exact decode_commandWord hc
  · rw [encodeTypeField_of_wireType hw] at hat
    rw [decodeRecordAt_of_hasAt hC site hat, decodeType_of_wireType hwf hw]

/-- Settles O3: the type map's own lemmas, one per clause. -/
theorem everyTypeDecodesAndKeepsItsBits : Obligations.EveryTypeDecodesAndKeepsItsBits := fun site type =>
  ⟨decodeType site type, rfl, decodeType_wellFormed site type, decodeType_wireType site type,
    encode_of_wireType (decodeType_wireType site type)⟩

/-! ## The rows of the opcode table -/

/-- A mask that clears the low `k` bits, with a pattern that has none of them, fits the types of one interval. -/
theorem and_mask_eq_iff (type pattern : Word) (k : Nat) (hk : 2 ^ k ∣ pattern.toNat) :
    type &&& (BitVec.allOnes 64 <<< k) = pattern ↔
      pattern.toNat ≤ type.toNat ∧ type.toNat < pattern.toNat + 2 ^ k := by
  have hpos := Nat.two_pow_pos k
  have hle : type.toNat / 2 ^ k * 2 ^ k ≤ type.toNat := Nat.div_mul_le_self ..
  have htoNat : (type &&& (BitVec.allOnes 64 <<< k)).toNat = type.toNat / 2 ^ k * 2 ^ k := by
    rw [← BitVec.shiftLeft_ushiftRight, BitVec.toNat_shiftLeft, BitVec.toNat_ushiftRight, Nat.shiftLeft_eq,
      Nat.shiftRight_eq_div_pow, Nat.mod_eq_of_lt (lt_of_le_of_lt hle type.isLt)]
  obtain ⟨m, hm⟩ := hk
  rw [← BitVec.toNat_inj, htoNat, hm, Nat.mul_comm, Nat.mul_right_inj hpos.ne', Nat.div_eq_iff hpos, Nat.mul_comm m]
  omega

/-- The number of types a row's mask and match fit. -/
def rowSpan (row : WireRow) : Nat := 2 ^ 64 - row.mask.toNat

/-- Every mask of the table clears the low 3, 7 or all 64 bits (R87). -/
theorem wireRows_masks : ∀ row ∈ wireRows, ∃ k ∈ [3, 7, 64],
    row.mask = BitVec.allOnes 64 <<< k ∧ 2 ^ k ∣ row.pattern.toNat ∧ rowSpan row = 2 ^ k := by
  decide

/-- A row fits the types of an interval that begins at its match. -/
theorem wireRow_fits_iff {row : WireRow} (hrow : row ∈ wireRows) (type : Word) :
    type &&& row.mask = row.pattern ↔
      row.pattern.toNat ≤ type.toNat ∧ type.toNat < row.pattern.toNat + rowSpan row := by
  obtain ⟨k, -, hmask, hdvd, hspan⟩ := wireRows_masks row hrow
  rw [hmask, hspan, and_mask_eq_iff type row.pattern k hdvd]

/-- A row fits all of its own range (R86). -/
theorem wireRows_cover : ∀ row ∈ wireRows,
    row.pattern.toNat ≤ row.typeMin ∧ row.typeMax < row.pattern.toNat + rowSpan row := by
  decide

/-- A row fits nothing of the range of a later row.  This is where the order of the rows counts: the masks of `REC.XS`
and of the last `REC.XM` fit more than their ranges, and all of the surplus belongs to rows before them (R87). -/
theorem wireRows_ordered : wireRows.Pairwise fun row later =>
    later.typeMax < row.pattern.toNat ∨ row.pattern.toNat + rowSpan row ≤ later.typeMin := by
  decide

/-- The row whose range holds a type is the first that fits it (R86, R87). -/
theorem selectRow_of_inRange {row : WireRow} {type : Word} (hrow : row ∈ wireRows) (hmin : row.typeMin ≤ type.toNat)
    (hmax : type.toNat ≤ row.typeMax) : selectRow type = some row := by
  have hcover := wireRows_cover row hrow
  obtain ⟨n, hn, rfl⟩ := List.getElem_of_mem hrow
  refine List.find?_eq_some_iff_getElem.2 ⟨?_, n, hn, rfl, fun j hj => ?_⟩
  · rw [beq_iff_eq, wireRow_fits_iff hrow]
    omega
  · have hordered := List.pairwise_iff_getElem.1 wireRows_ordered j n (by omega) hn hj
    rw [Bool.not_eq_true', beq_eq_false_iff_ne, ne_eq, wireRow_fits_iff (List.getElem_mem _)]
    omega

/-- The law of the encodings (Laws/PerInstr.lean) for every instruction. -/
theorem wireEncoding (i : Instr) : Laws.WireEncoding.Statement i := by
  open Laws.WireEncoding in
  cases i
  exacts [recI0 _ _, recI1 _ _, recI2 _ _, recI3 _ _, recI4 _ _, recI5 _ _, recI6 _ _, recI7 _ _, recI8 _ _, recI9 _ _,
    recI10 _ _, recI11 _ _, recI12 _ _, recI13 _ _, recI14 _ _, recI15 _ _, recXS _ _, recXM _ _, bind _, seek _, next,
    decodeAt _, Laws.WireEncoding.encodeRecord _ _]

/-- A well-formed record has a row of its mnemonic whose range holds its type (R86). -/
theorem exists_row_of_wireType {i : Instr} {site : Site} {type : Word} (hwf : i.WellFormed)
    (h : i.wireType = some (site, type)) :
    ∃ row ∈ wireRows, row.mnemonic = i.mnemonic ∧ row.typeMin ≤ type.toNat ∧ type.toNat ≤ row.typeMax := by
  have henc := encode_of_wireType h
  obtain ⟨c, hc, -⟩ | ⟨_, _, hr, hrow⟩ | ⟨hnone, -⟩ := wireEncoding i hwf
  · rw [henc] at hc; cases hc
  · rw [henc] at hr; cases hr; exact hrow
  · rw [henc] at hnone; cases hnone

/-- Settles O2: the decoded record has a row, and a row whose range holds the type is the row selected. -/
theorem everyTypeSelectsExactlyOneTableRow : Obligations.EveryTypeSelectsExactlyOneTableRow := by
  intro site type
  obtain ⟨row, hrow, hmnemonic, hmin, hmax⟩ :=
    exists_row_of_wireType (decodeType_wellFormed site type) (decodeType_wireType site type)
  have hselect := selectRow_of_inRange hrow hmin hmax
  refine ⟨row, hselect, hmnemonic, hmin, hmax, fun row' hrow' hmin' hmax' => ?_⟩
  exact Option.some.inj ((selectRow_of_inRange hrow' hmin' hmax').symm.trans hselect)

/-! ## The command codes and the responses -/

/-- Every other code decodes to nothing, by name (R92, R206). -/
theorem decode_of_reserved {c : Command} (h : c.code ≠ 0x01 ∧ c.code ≠ 0x02 ∧ c.code ≠ 0x03 ∧ c.code ≠ 0x04) :
    decode (.command c) = .error (.reservedCommandCode c.code) := by
  obtain ⟨h1, h2, h3, h4⟩ := h
  rw [decode, decodeCommand, if_neg h1, if_neg h2, if_neg h3, if_neg h4]

theorem runCommand_of_error {c : Command} {r : DecodeReject} (h : decode (.command c) = .error r) (s : State) :
    runCommand c s = .next (s.answer (.response .refused)) := by
  simp only [runCommand, h, refuseCommand]

/-- Settles O1: the four codes by the command map, every other one as reserved. -/
theorem commandCodesDecodeAsTheTableSays : Obligations.CommandCodesDecodeAsTheTableSays := by
  refine ⟨fun _ _ => rfl, fun _ _ => rfl, fun _ _ => rfl, fun _ _ => rfl, fun c s hc => ?_⟩
  have hreserved : decode (.command c) = .error (.reservedCommandCode c.code) :=
    decode_of_reserved (by bv_omega)
  exact ⟨hreserved, runCommand_of_error hreserved s⟩

/-- The response of a decode is a record or an error, and its code is that of the `KIND` left behind (R93, R157, R174). -/
theorem deliver_response (site : Site) (d : Except DecodeError Header) (s : State) :
    ∃ r : Response, (deliver site d s).reply = some (.response r) ∧ (deliver site d s).kind.code.toNat = r.code := by
  cases d with
  | ok h => exact ⟨.record h.toResult, by simp [yielded], by simp [Kind.code, Response.code]⟩
  | error e => exact ⟨.error e, by simp [failed], by simp [Kind.code, Response.code]⟩

/-- A host command answers `HALTED`, or with the code of the `KIND` it leaves behind (R93). -/
theorem command_response {i : Instr} {c : Command} {s t : State} (hc : i.commandWord = some c)
    (h : exec i s = .next t) :
    t.reply = some (.response .halted) ∨
      ∃ r : Response, t.reply = some (.response r) ∧ t.kind.code.toNat = r.code := by
  cases i with
  | bind b =>
    obtain rfl := execBind_next h
    exact .inr ⟨.ok, rfl, rfl⟩
  | seek off => cases h; exact .inr ⟨.ok, rfl, rfl⟩
  | next =>
    rcases execNext_cases s with ⟨-, hx⟩ | ⟨-, -, hx⟩ | ⟨-, -, hx⟩ <;> rw [hx] at h <;> cases h
    · exact .inl rfl
    · exact .inr ⟨.atEnd, rfl, rfl⟩
    · exact .inr (deliver_response ..)
  | decodeAt off => cases h; exact .inr (deliver_response ..)
  | _ => cases hc

/-- Settles O36: `HALTED` has code 4, and every other response of a command the code of `KIND`. -/
theorem responseCodesMatchTheKindLeftBehind : Obligations.ResponseCodesMatchTheKindLeftBehind := by
  rintro i s t r ⟨c, hc⟩ h hreply hcode
  obtain hhalted | ⟨r', hreply', hkind⟩ := command_response hc h
  · rw [hhalted] at hreply
    cases hreply
    exact absurd hcode (by decide)
  · rw [hreply'] at hreply
    cases hreply
    exact hkind

/-! ## Words written out -/

/-- A word of the table's wide rows is a type, read through the machine's codec (log 17). -/
theorem decodeTableWord_type {w : Nat} (h : w < 2 ^ 64) :
    decodeTableWord 64 w = some (decodeType .scan (BitVec.ofNat 64 w)) := by
  have hat : (ByteSeq.ofList (intCodec.enc (BitVec.ofNat 64 w))).HasAt 0 (intCodec.enc (BitVec.ofNat 64 w)) := by
    simpa using ByteSeq.hasAt_ofList_append [] (intCodec.enc (BitVec.ofNat 64 w)) []
  rw [decodeTableWord, if_neg (by decide), if_pos h, decodeRecordAt_of_hasAt intCodec_conforms .scan hat]
  rfl

/-- Settles O5: the codes and the bytes by running the decoder, the types through `decodeTableWord_type`. -/
theorem sampleWordsDecode : Obligations.SampleWordsDecode := by
  refine ⟨by decide, by decide, by decide, (decodeTableWord_type (by decide)).trans (by decide),
    (decodeTableWord_type (by decide)).trans (by decide), (decodeTableWord_type (by decide)).trans (by decide),
    (decodeTableWord_type (by decide)).trans (by decide), by decide, by decide⟩

end Sys2Proof.Machine

namespace Sys2Proof

/-! # The Integer Codec (40_integer_codec.md): proofs of the family's statements

First what the contract gives every codec: where `IntEnc(n)` stands decides a decode, and no encoding begins another.
Then `VARU64-REF`: the bytes it writes, the forms it refuses, and the size its first byte tells. -/

/-! ## Every conforming codec -/

section Conforming

variable {C : IntCodec}

/-- R116, the first line. -/
theorem IntCodec.Conforms.dec_eq_some_iff (hC : C.Conforms) {B : ByteSeq} {off : Nat} {n : Word} {c : Nat} :
    C.dec B off = some (n, c) ↔ c = (C.enc n).length ∧ B.HasAt off (C.enc n) := by
  constructor
  · intro h
    obtain ⟨hc, -, -, hat⟩ := hC.dec_some h
    exact ⟨hc, hat⟩
  · rintro ⟨rfl, hat⟩
    exact hC.dec_of_hasAt hat

/-- R116, the second line. -/
theorem IntCodec.Conforms.dec_eq_none_iff (hC : C.Conforms) {B : ByteSeq} {off : Nat} :
    C.dec B off = none ↔ ¬ ∃ n, B.HasAt off (C.enc n) := by
  rw [Option.eq_none_iff_forall_ne_some, not_exists]
  constructor
  · exact fun h n hat => h _ (hC.dec_of_hasAt hat)
  · rintro h ⟨n, c⟩ hd
    exact h n (hC.dec_eq_some_iff.1 hd).2

/-- An encoding that begins another is that other: both are decoded from the same bytes. -/
theorem IntCodec.Conforms.eq_of_enc_eq_append (hC : C.Conforms) {a b : Word} {l : List Byte}
    (h : C.enc b = C.enc a ++ l) : a = b ∧ l = [] := by
  have hat : (ByteSeq.ofList (C.enc b)).HasAt 0 (C.enc a) := by
    rw [h]
    exact ByteSeq.hasAt_ofList_append [] (C.enc a) l
  have hdec := (hC.dec_of_hasAt hat).symm.trans (hC.roundTrip b)
  obtain rfl : a = b := congrArg Prod.fst (Option.some.inj hdec)
  exact ⟨rfl, List.self_eq_append_right.1 h⟩

end Conforming

/-- Settles O6: the two lines of R116, and injectivity as the case of nothing left over. -/
theorem intDecIsDeterminedByIntEnc : Obligations.IntDecIsDeterminedByIntEnc := by
  intro C hC
  refine ⟨fun B off n c => ?_, fun B off => hC.dec_eq_none_iff, fun a b h => ?_, fun a => ?_, fun a b l h => ?_⟩
  · rw [hC.dec_eq_some_iff]
    exact and_congr_right fun hc => hc ▸ Iff.rfl
  · exact (hC.eq_of_enc_eq_append (l := []) (by rw [h, List.append_nil])).1
  · exact List.length_pos_iff.1 (hC.enc_pos a)
  · exact (hC.eq_of_enc_eq_append h).2

/-! ## The bytes `VARU64-REF` writes -/

/-- Byte `i` of `BE_k(n)` is byte `k - 1 - i` of the number (R120). -/
theorem bigEndian_eq_map_range (k n : Nat) :
    bigEndian k n = (List.range k).map fun i => BitVec.ofNat 8 (n / 2 ^ (8 * (k - 1 - i))) := by
  induction k with
  | zero => rfl
  | succ k ih =>
    simp only [bigEndian, ih, List.range_succ_eq_map, List.map_cons, List.map_map, Nat.add_sub_cancel, Nat.sub_zero]
    congr 1
    refine List.map_congr_left fun i _ => ?_
    rw [Function.comp_apply, Nat.sub_sub k 1 i, Nat.add_comm 1 i]

theorem varEnc_of_lt {n : Word} (h : n.toNat < 248) : varEnc n = [BitVec.ofNat 8 n.toNat] :=
  if_pos h

/-- Settles O7: the payload size is the only one that fits and is least. -/
theorem varuEncodesInTheShortestForm : Obligations.VaruEncodesInTheShortestForm := by
  refine ⟨fun n h => varEnc_of_lt h, fun n k hn h1 h8 hfit hleast => ?_⟩
  have hk : varPayloadSize n.toNat = k := by
    refine varPayloadSize_unique n.toNat k h1 h8 hfit ?_
    obtain rfl | hlt := Nat.eq_or_lt_of_le h1
    · exact .inl rfl
    · exact .inr (hleast (k - 1) (by omega) (by omega))
  change varEnc n = _
  rw [varEnc_of_ge n (Nat.not_lt.2 hn), hk, bigEndian_eq_map_range]

/-! ## The forms `VARU64-REF` refuses -/

/-- A number fits the bytes behind its first one exactly when the first one is 0. -/
theorem bigEndianValue_cons_lt_iff (b : Byte) (l : List Byte) :
    bigEndianValue (b :: l) < 2 ^ (8 * l.length) ↔ b = 0 := by
  have hl := bigEndianValue_lt l
  rw [bigEndianValue, BitVec.toNat_eq]
  constructor
  · intro h
    by_contra hb
    have := Nat.le_mul_of_pos_left (2 ^ (8 * l.length)) (Nat.pos_of_ne_zero hb)
    omega
  · intro hb
    simpa [hb] using hl

/-- The three refusals of R121 behind a first byte that announces `k` payload bytes, told by the first of them. -/
theorem varDecPayload_eq_none_iff (B : ByteSeq) (off : Nat) {k : Nat} (hk : 1 ≤ k) :
    varDecPayload B off k = none ↔
      B.len < off + 1 + k ∨ (k = 1 ∧ (B.byte (off + 1)).toNat < 248) ∨ (1 < k ∧ B.byte (off + 1) = 0) := by
  have hslice := B.slice_cons (off + 1) (off + 1 + k) (by omega)
  have hshort (h : k = 1) : bigEndianValue (B.slice (off + 1) (off + 1 + k)) = (B.byte (off + 1)).toNat := by
    subst h
    simp [ByteSeq.slice, bigEndianValue]
  have hlong : bigEndianValue (B.slice (off + 1) (off + 1 + k)) < 2 ^ (8 * (k - 1)) ↔ B.byte (off + 1) = 0 := by
    rw [hslice, ← bigEndianValue_cons_lt_iff, ByteSeq.slice_length,
      show off + 1 + k - (off + 1 + 1) = k - 1 by omega]
  simp only [varDecPayload, hlong]
  split_ifs with hcut hone hzero
  · exact ⟨fun _ => .inl hcut, fun _ => rfl⟩
  · exact ⟨fun _ => .inr (.inl ⟨hone.1, hshort hone.1 ▸ hone.2⟩), fun _ => rfl⟩
  · exact ⟨fun _ => .inr (.inr hzero), fun _ => rfl⟩
  · refine ⟨nofun, ?_⟩
    rintro (h | ⟨hk1, h⟩ | h)
    · exact absurd h hcut
    · exact absurd ⟨hk1, (hshort hk1).symm ▸ h⟩ hone
    · exact absurd h hzero

/-- Settles O8: past the end, or refused behind a first byte from 248 on. -/
theorem varuFailsExactlyOnBadForms : Obligations.VaruFailsExactlyOnBadForms := by
  intro B off
  change varDec B off = none ↔ _
  unfold varDec
  split_ifs with hend hone
  · exact ⟨fun _ => .inl hend, fun _ => rfl⟩
  · refine ⟨nofun, ?_⟩
    rintro (h | ⟨k, hk, h1, -⟩) <;> omega
  · rw [varDecPayload_eq_none_iff B off (by omega)]
    constructor
    · exact fun h => .inr ⟨_, by omega, by omega, h⟩
    · rintro (h | ⟨k, hk, -, h⟩)
      · omega
      · rwa [hk, Nat.add_sub_cancel_left]

/-! ## The first byte tells the size -/

/-- R124: a scalar has 1 to 9 bytes. -/
theorem varSize_bounds (first : Byte) : 1 ≤ varSize first ∧ varSize first ≤ 9 := by
  have := first.isLt
  unfold varSize
  split_ifs <;> omega

/-- R122: the first byte fixes the total length. -/
theorem exists_varEnc_eq_cons (n : Word) :
    ∃ first rest, varEnc n = first :: rest ∧ (varEnc n).length = varSize first := by
  rw [varEnc_length]
  by_cases h : n.toNat < 248
  · refine ⟨_, _, varEnc_of_lt h, ?_⟩
    simp [varSize, h]
    omega
  · obtain ⟨h1, h8, -⟩ := varPayloadSize_spec n.toNat n.isLt
    refine ⟨_, _, varEnc_of_ge n h, ?_⟩
    have hfirst : (BitVec.ofNat 8 (247 + varPayloadSize n.toNat)).toNat = 247 + varPayloadSize n.toNat := by
      rw [BitVec.toNat_ofNat]
      omega
    rw [varSize, hfirst, if_neg h, if_neg (by omega), Nat.add_sub_cancel_left]

/-- Where an encoding stands, the byte there tells its size. -/
theorem varEnc_length_of_hasAt {B : ByteSeq} {off : Nat} {n : Word} (h : B.HasAt off (varEnc n)) :
    (varEnc n).length = varSize (B.byte off) := by
  obtain ⟨first, rest, henc, hsize⟩ := exists_varEnc_eq_cons n
  rw [henc, ByteSeq.hasAt_cons_iff] at h
  rw [hsize, h.2.1]

/-- An encoding stands wherever the bytes that its first one announces do. -/
theorem hasAt_varEnc_of_same_bytes {B B' : ByteSeq} {off off' : Nat} {n : Word} (h : B.HasAt off (varEnc n))
    (hlen : off' + varSize (B.byte off) ≤ B'.len)
    (hbyte : ∀ i < varSize (B.byte off), B'.byte (off' + i) = B.byte (off + i)) : B'.HasAt off' (varEnc n) := by
  rw [← varEnc_length_of_hasAt h] at hlen hbyte
  rw [ByteSeq.hasAt_iff] at h ⊢
  exact ⟨hlen, fun i hi => (hbyte i hi).trans (h.2 i hi)⟩

/-- R121: a decode, failing or not, reads the bytes its first byte announces and no others. -/
theorem varDec_congr {B B' : ByteSeq} {off off' : Nat} (hlen : off + varSize (B.byte off) ≤ B.len)
    (hlen' : off' + varSize (B.byte off) ≤ B'.len)
    (hbyte : ∀ i < varSize (B.byte off), B'.byte (off' + i) = B.byte (off + i)) : varDec B' off' = varDec B off := by
  have hfirst : B'.byte off' = B.byte off := hbyte 0 (varSize_bounds _).1
  apply Option.ext
  rintro ⟨n, c⟩
  rw [varDec_eq_some_iff, varDec_eq_some_iff]
  refine and_congr_right fun _ => ⟨fun h => ?_, fun h => hasAt_varEnc_of_same_bytes h hlen' hbyte⟩
  rw [← hfirst] at hlen hbyte
  exact hasAt_varEnc_of_same_bytes h hlen fun i hi => (hbyte i hi).symm

/-- Settles O58: the contract is `intCodec_conforms`; that no encoding begins another follows from it, the rest from the first byte. -/
theorem varuMeetsTheContract : Obligations.VaruMeetsTheContract := by
  refine ⟨intCodec_conforms, varSize_bounds, exists_varEnc_eq_cons, fun B off n c h => ?_,
    fun B B' off off' => varDec_congr, fun a b l => intCodec_conforms.eq_of_enc_eq_append⟩
  obtain ⟨rfl, hat⟩ := (varDec_eq_some_iff ..).1 h
  exact varEnc_length_of_hasAt hat

end Sys2Proof

namespace Sys2Proof.Machine

/-! # The header decoder (41_header_decode.md): proofs of the family's statements

First `DecodeOne` for every conforming codec: the truncation test, where a record lies, what its answer does not depend
on. Then the records on the machine: each is the operand form of its class, and the commands run the record they find. -/

/-! ## The truncation test -/

section FinishHeader

variable {L headerEnd : Nat} {type length : Word}

theorem finishHeader_of_fits (h : headerEnd + length.toNat ≤ L) :
    finishHeader L type length headerEnd = .ok ⟨type, length, headerEnd, headerEnd + length.toNat⟩ :=
  finishHeader_ok_iff.2 ⟨by omega, rfl⟩

/-- With the header's end inside the buffer the test is exact, although it subtracts (R152). -/
theorem finishHeader_truncated_iff (h : headerEnd ≤ L) :
    finishHeader L type length headerEnd = .error .truncatedValue ↔ L < headerEnd + length.toNat := by
  rw [finishHeader_error_iff]
  constructor
  · rintro ⟨hlt, -⟩
    omega
  · exact fun hlt => ⟨by omega, rfl⟩

/-- A header's end beyond the buffer is truncation too, unless the value is empty. -/
theorem finishHeader_of_short (hpos : 0 < length.toNat) (h : L < headerEnd + length.toNat) :
    finishHeader L type length headerEnd = .error .truncatedValue :=
  finishHeader_error_iff.2 ⟨by omega, rfl⟩

end FinishHeader

/-- Settles O15: a header whose length decoded ends inside the buffer, so the test is exact. -/
theorem truncationTestNeverWraps : Obligations.TruncationTestNeverWraps := by
  intro C hC B off n1 n2 type length htype hexplicit hlength
  have hat : HeaderAt C B off type length (off + n1 + n2) := ⟨n1, htype, .inr ⟨hexplicit, n2, hlength, rfl⟩⟩
  obtain ⟨hoff, hend, -⟩ := hat.bounds hC
  have hiff := finishHeader_truncated_iff (type := type) (length := length) hend
  rw [← decodeOne_of_headerAt hat] at hiff
  exact ⟨hiff, fun hmax hB => hiff.2 (by omega)⟩

/-! ## Where a record lies -/

/-- Settles O9: `decodeOne_bounds`, and the offset lies before the header's end. -/
theorem decodedRecordLiesInsideTheBuffer : Obligations.DecodedRecordLiesInsideTheBuffer := by
  intro C hC B off h hd
  obtain ⟨hoff, hv, hn, hnext⟩ := decodeOne_bounds hC hd
  exact ⟨hoff, hv, hn, hnext, by omega⟩

/-- Settles O11: no type field stands there. -/
theorem noRecordAtOrBeyondTheEnd : Obligations.NoRecordAtOrBeyondTheEnd :=
  fun _ hC B off h => decodeOne_of_dec_none (hC.failsPastEnd B off h)

/-- R155. -/
theorem decodeOne_next_ge {C : IntCodec} (hC : C.Conforms) {B : ByteSeq} {off : Nat} {h : Header}
    (hd : decodeOne C B off = .ok h) : off + 2 ≤ h.next := by
  obtain ⟨hat, -, hnext⟩ := decodeOne_ok hd
  obtain ⟨-, -, htwo⟩ := hat.bounds hC
  rwa [hnext]

/-- All that a scan with a result can have done first (R181): reached the end, failed, or yielded a record and gone on
behind it. -/
theorem scanFuel_some_cases {C : IntCodec} {B : ByteSeq} {fuel off : Nat} {hs : List Header} {t : Terminal}
    (h : scanFuel C B (fuel + 1) off = some (hs, t)) :
    (off = B.len ∧ hs = [] ∧ t = .done) ∨
    (off ≠ B.len ∧ ∃ e, decodeOne C B off = .error e ∧ hs = [] ∧ t = .failed e off) ∨
    (off ≠ B.len ∧ ∃ first rest, decodeOne C B off = .ok first ∧
      scanFuel C B fuel first.next = some (rest, t) ∧ hs = first :: rest) := by
  rw [scanFuel] at h
  split at h
  next hend =>
    cases h
    exact .inl ⟨hend, rfl, rfl⟩
  next hend =>
    cases hd : decodeOne C B off with
    | error e =>
      rw [hd] at h
      cases h
      exact .inr (.inl ⟨hend, e, rfl, rfl, rfl⟩)
    | ok first =>
      rw [hd] at h
      obtain ⟨⟨rest, t'⟩, hrest, heq⟩ := Option.map_eq_some_iff.1 h
      cases heq
      exact .inr (.inr ⟨hend, first, rest, rfl, hrest, rfl⟩)

/-- Two bytes for each record a scan yields (R182). -/
theorem scanFuel_length_le {C : IntCodec} (hC : C.Conforms) {B : ByteSeq} {fuel off : Nat} {hs : List Header}
    {t : Terminal} (h : scanFuel C B fuel off = some (hs, t)) : 2 * hs.length ≤ B.len - off := by
  induction fuel generalizing off hs with
  | zero => cases h
  | succ fuel ih =>
    obtain ⟨-, rfl, -⟩ | ⟨-, e, -, rfl, -⟩ | ⟨-, first, rest, hd, hrest, rfl⟩ := scanFuel_some_cases h
    · exact Nat.zero_le _
    · exact Nat.zero_le _
    · have htwo := decodeOne_next_ge hC hd
      obtain ⟨-, -, hin, -⟩ := decodeOne_bounds hC hd
      have hlen := ih hrest
      rw [List.length_cons]
      omega

/-- Settles O10: the records of a scan stand one behind the other. -/
theorem recordsTakeAtLeastTwoBytes : Obligations.RecordsTakeAtLeastTwoBytes := by
  refine fun C hC B => ⟨fun off h => decodeOne_next_ge hC, fun hs t h => ?_⟩
  have hlen : 2 * hs.length ≤ B.len - 0 := scanFuel_length_le hC h
  omega

/-! ## What the answer does not depend on -/

/-- A list stands wherever its bytes do, at whatever offset. -/
theorem hasAt_of_same_bytes {B B' : ByteSeq} {off off' : Nat} {l : List Byte} (h : B.HasAt off l)
    (hlen : off' + l.length ≤ B'.len) (hbyte : ∀ i < l.length, B'.byte (off' + i) = B.byte (off + i)) :
    B'.HasAt off' l := by
  rw [ByteSeq.hasAt_iff] at h ⊢
  exact ⟨hlen, fun i hi => (hbyte i hi).trans (h.2 i hi)⟩

/-- A header stands wherever its bytes do, its end moved along (R156). -/
theorem HeaderAt.shift {C : IntCodec} (hC : C.Conforms) {B B' : ByteSeq} {off off' headerEnd : Nat}
    {type length : Word} (h : HeaderAt C B off type length headerEnd)
    (hbyte : ∀ i < headerEnd - off, B'.byte (off' + i) = B.byte (off + i))
    (hlen : off' + (headerEnd - off) ≤ B'.len) : HeaderAt C B' off' type length (off' + (headerEnd - off)) := by
  obtain ⟨himplied, rfl, hat⟩ := (headerAt_iff hC).1 h
  rw [Nat.add_sub_cancel_left] at hbyte hlen ⊢
  exact (headerAt_iff hC).2 ⟨himplied, rfl, hasAt_of_same_bytes hat hlen hbyte⟩

/-- Settles O12: the header is there again, and its value fits. -/
theorem recordDecodesTheSameAnywhere : Obligations.RecordDecodesTheSameAnywhere := by
  intro C hC B B' off off' h hd hbyte hfit
  obtain ⟨hat, -⟩ := decodeOne_ok hd
  rw [decodeOne_of_headerAt (hat.shift hC hbyte (by omega)), finishHeader_of_fits hfit]

theorem toNat_div_eight_of_class_eq {type type' : Word} (h : type >>> 3 = type' >>> 3) :
    type.toNat / 8 = type'.toNat / 8 := by
  simpa [Nat.shiftRight_eq_div_pow] using congrArg BitVec.toNat h

/-- A type below 128 leaves only the truncation test on the implied length (R130, R131). -/
theorem decodeOne_of_implied {C : IntCodec} {B : ByteSeq} {off n1 : Nat} {type : Word}
    (hd : C.dec B off = some (type, n1)) (h : type.toNat < 128) :
    decodeOne C B off = finishHeader B.len type (BitVec.ofNat 64 (2 ^ (type.toNat / 8))) (off + n1) :=
  decodeOne_of_headerAt ⟨n1, hd, .inl ⟨h, rfl, rfl⟩⟩

/-- Settles O13: both decodes are one truncation test, of the class's length against the bytes left. -/
theorem theSlotIsIgnored : Obligations.TheSlotIsIgnored := by
  intro C hC B B' off off' n1 n1' type type' hd hd' hleft himplied himplied' hcls
  rw [decodeOne_of_implied hd himplied, decodeOne_of_implied hd' himplied', toNat_div_eight_of_class_eq hcls]
  refine ⟨fun h hok => ?_, fun e herr => ?_⟩
  · obtain ⟨hfit, rfl⟩ := finishHeader_ok_iff.1 hok
    exact finishHeader_ok_iff.2 ⟨hleft ▸ hfit, by rw [Nat.add_sub_cancel_left]⟩
  · rw [finishHeader_error_iff] at herr ⊢
    rwa [← hleft]

/-! ## The records on the machine -/

/-- The two ends of a decode that has read a header, register by register. -/
theorem deliver_finishHeader (site : Site) (s : State) {type length : Word} {headerEnd : Nat}
    (h : headerEnd ≤ s.buflen.toNat ∨ 0 < length.toNat) :
    (headerEnd + length.toNat ≤ s.buflen.toNat →
      deliver site (finishHeader s.buf.len type length headerEnd) s = yielded site
        ⟨type, length, BitVec.ofNat 64 headerEnd, BitVec.ofNat 64 (headerEnd + length.toNat)⟩ s) ∧
    (s.buflen.toNat < headerEnd + length.toNat →
      deliver site (finishHeader s.buf.len type length headerEnd) s = failed site .truncatedValue s) := by
  rw [State.buf_len]
  constructor
  · intro hfit
    rw [finishHeader_of_fits hfit, deliver_ok]
    rfl
  · intro hshort
    obtain hend | hpos := h
    · rw [(finishHeader_truncated_iff hend).2 hshort, deliver_error]
    · rw [finishHeader_of_short hpos hshort, deliver_error]

/-- The record of a class runs with the class's length `2^class` (R134 to R149). -/
theorem exec_decodeClass (site : Site) (cls : BitVec 4) (slot : BitVec 3) (s : State) :
    exec (decodeClass site cls slot) s = .next (runImplied site cls slot (2 ^ cls.toNat) s) := by
  obtain ⟨k⟩ := cls
  fin_cases k <;> rfl

theorem two_pow_class_lt (cls : BitVec 4) : 2 ^ cls.toNat < 2 ^ 64 :=
  Nat.pow_lt_pow_right (by decide) (by omega)

/-- The row of the implied-length table for a class, by the type map. -/
def classRow (cls : BitVec 4) : ImpliedRow :=
  ⟨fun site slot => decodeClass site cls slot, 8 * cls.toNat, 2 ^ cls.toNat⟩

theorem impliedRowsLow_eq : impliedRowsLow = [0, 1, 2, 3, 4, 5, 6, 7].map classRow := rfl

theorem impliedRowsHigh_eq : impliedRowsHigh = [8, 9, 10, 11, 12, 13, 14, 15].map classRow := rfl

/-- R134 to R149, for every class at once. -/
theorem classRow_holds (cls : BitVec 4) : (classRow cls).Holds := by
  rintro site slot s type off n1 htype rfl rfl
  have hlt := two_pow_class_lt cls
  have hlength := toNat_ofNat_of_lt _ hlt
  obtain rfl : type = impliedType cls slot := htype.trans (impliedType_eq cls slot).symm
  have hends := deliver_finishHeader site s (type := impliedType cls slot) (length := BitVec.ofNat 64 (2 ^ cls.toNat))
    (headerEnd := Site.offset site s + typeFieldSize (impliedType cls slot))
    (.inr (by rw [hlength]; exact Nat.two_pow_pos _))
  rw [hlength, ← impliedHeader_eq s _ _ _ hlt] at hends
  obtain ⟨hfits, hshort⟩ := hends
  exact ⟨fun h => (exec_decodeClass ..).trans (congrArg _ (hfits h)),
    fun h => (exec_decodeClass ..).trans (congrArg _ (hshort h))⟩

/-- Settles O20: the rows of the classes 0 to 7. -/
theorem impliedRecordsOfClassesZeroToSeven : Obligations.ImpliedRecordsOfClassesZeroToSeven := by
  unfold Obligations.ImpliedRecordsOfClassesZeroToSeven
  rw [impliedRowsLow_eq]
  exact List.forall_mem_map.2 fun cls _ => classRow_holds cls

/-- Settles O21: the rows of the classes 8 to 15. -/
theorem impliedRecordsOfClassesEightToFifteen : Obligations.ImpliedRecordsOfClassesEightToFifteen := by
  unfold Obligations.ImpliedRecordsOfClassesEightToFifteen
  rw [impliedRowsHigh_eq]
  exact List.forall_mem_map.2 fun cls _ => classRow_holds cls

/-- R150, for any record that runs as a format-X one. -/
theorem explicitHolds_of_exec {make : Site → Word → Instr} {type : Word}
    (hexec : ∀ site s, exec (make site type) s = .next (runExplicit site type s)) : ExplicitHolds make type := by
  rintro site s off n1 rfl rfl
  refine ⟨fun hlength => ?_, fun l n2 hlength => ?_⟩
  · rw [hexec, runExplicit, explicitHeader_eq, typeFieldSize, hlength]
    exact congrArg _ (deliver_error ..)
  · obtain ⟨-, -, hend, -⟩ := intCodec_conforms.dec_some hlength
    rw [hexec, runExplicit, explicitHeader_eq, typeFieldSize, hlength]
    obtain ⟨hfits, hshort⟩ := deliver_finishHeader site s (type := type) (length := l) (.inl hend)
    exact ⟨fun h => congrArg _ (hfits h), fun h => congrArg _ (hshort h)⟩

/-- Settles O22: `REC.XS` and `REC.XM` run alike. -/
theorem explicitRecords : Obligations.ExplicitRecords :=
  ⟨fun _ _ _ => explicitHolds_of_exec fun _ _ => rfl, fun _ _ => explicitHolds_of_exec fun _ _ => rfl⟩

/-! ## The commands run the records -/

/-- The size of the type field is what the codec consumed (R114). -/
theorem typeFieldSize_of_dec {B : ByteSeq} {off n1 : Nat} {type : Word} (hd : intCodec.dec B off = some (type, n1)) :
    typeFieldSize type = n1 :=
  (intCodec_conforms.dec_some hd).1.symm

section RecordFound

variable {s : State} {site : Site} {type : Word} {n1 : Nat}
  (hd : intCodec.dec s.buf (Site.offset site s) = some (type, n1))
include hd

/-- R134 to R149 agree with R130. -/
theorem exec_decodeClass_of_dec (h : type.toNat < 128) :
    exec (decodeClass site (type.extractLsb' 3 4) (type.extractLsb' 0 3)) s =
      .next (deliver site (decodeOne intCodec s.buf (Site.offset site s)) s) := by
  have hcls : (type.extractLsb' 3 4).toNat = type.toNat / 8 := by
    rw [BitVec.extractLsb'_toNat, Nat.shiftRight_eq_div_pow]
    omega
  rw [exec_decodeClass, runImplied, impliedHeader_eq _ _ _ _ (two_pow_class_lt _), impliedType_extractLsb' h, hcls,
    typeFieldSize_of_dec hd, decodeOne_of_implied hd h]

/-- R150 and R151 agree with R130. -/
theorem runExplicit_of_dec (h : 128 ≤ type.toNat) :
    runExplicit site type s = deliver site (decodeOne intCodec s.buf (Site.offset site s)) s := by
  cases hlength : intCodec.dec s.buf (Site.offset site s + n1) <;>
    simp only [runExplicit, explicitHeader_eq, typeFieldSize_of_dec hd, decodeOne, hd, impliedLength_of_ge type h,
      hlength]

/-- The record whose type stands at its site does what `DecodeOne` says there. -/
theorem exec_decodeType_of_dec :
    exec (decodeType site type) s = .next (deliver site (decodeOne intCodec s.buf (Site.offset site s)) s) := by
  obtain ⟨himplied, htype⟩ | ⟨hxs, -, htype⟩ | ⟨hxm, htype⟩ := decodeType_cases site type <;> rw [htype]
  · exact exec_decodeClass_of_dec hd himplied
  · exact congrArg _ (runExplicit_of_dec hd hxs)
  · exact congrArg _ (runExplicit_of_dec hd (by omega))

end RecordFound

theorem decodeRecordAt_ok {C : IntCodec} {site : Site} {B : ByteSeq} {off : Nat} {i : Instr}
    (h : decodeRecordAt C site B off = .ok i) :
    ∃ type n1, C.dec B off = some (type, n1) ∧ i = decodeType site type := by
  unfold decodeRecordAt at h
  split at h
  · cases h
  · cases h
    exact ⟨_, _, ‹_›, rfl⟩

theorem decodeRecordAt_error {C : IntCodec} {site : Site} {B : ByteSeq} {off : Nat} {r : DecodeReject}
    (h : decodeRecordAt C site B off = .error r) : C.dec B off = none := by
  unfold decodeRecordAt at h
  split at h
  · assumption
  · cases h

/-- The record that the bytes at a site decode to delivers `DecodeOne` there (R134 to R151). -/
theorem exec_of_decodeRecordAt {s : State} {site : Site} {i : Instr}
    (h : decodeRecordAt intCodec site s.buf (Site.offset site s) = .ok i) :
    exec i s = .next (deliver site (decodeOne intCodec s.buf (Site.offset site s)) s) := by
  obtain ⟨type, n1, hd, rfl⟩ := decodeRecordAt_ok h
  exact exec_decodeType_of_dec hd

/-- R241. -/
theorem decodeOne_of_decodeRecordAt_error {C : IntCodec} {site : Site} {B : ByteSeq} {off : Nat} {r : DecodeReject}
    (h : decodeRecordAt C site B off = .error r) : decodeOne C B off = .error (.malformedInteger .type) :=
  decodeOne_of_dec_none (decodeRecordAt_error h)

/-- A running scanner decodes at `CURSOR` (R174). -/
theorem execNext_running {s : State} (hhalt : s.halt = false) (hend : s.cursor ≠ s.buflen) :
    exec .next s = .next (deliver .scan (decodeOne intCodec s.buf s.cursor.toNat) s) := by
  simp [exec, execNext, hhalt, hend]

/-- A halted scanner only answers (R177). -/
theorem execNext_halted {s : State} (h : s.halt = true) :
    exec .next s = .next { s with reply := some (.response .halted) } := by
  simp [exec, execNext, h, State.answer]

/-- R157. -/
theorem exec_decodeAt (off : Offset) (s : State) :
    exec (.decodeAt off) s = .next (deliver (.peek off) (decodeOne intCodec s.buf off.toNat) s) := rfl

/-- Settles O23: both commands deliver `DecodeOne` at their site, and so does the record. -/
theorem commandsRunTheRecordTheyFind : Obligations.CommandsRunTheRecordTheyFind := by
  refine ⟨fun s i hhalt hend h => ?_, fun s off i h => ?_, fun s r hhalt hend h => ?_, fun s off r h => ?_⟩
  · rw [execNext_running hhalt hend]
    exact (exec_of_decodeRecordAt h).symm
  · rw [exec_decodeAt]
    exact (exec_of_decodeRecordAt h).symm
  · rw [execNext_running hhalt hend, decodeOne_of_decodeRecordAt_error h, deliver_error]
  · rw [exec_decodeAt, decodeOne_of_decodeRecordAt_error h, deliver_error]

/-! ## `DECODE_AT` -/

/-- Settles O31: the two ends of a decode outside the scan. -/
theorem decodeAtReportsTheRecordOrTheError : Obligations.DecodeAtReportsTheRecordOrTheError := by
  refine fun s off => ⟨fun h hd => ?_, fun e hd => ?_⟩
  · rw [exec_decodeAt, hd]
    rfl
  · rw [exec_decodeAt, hd]
    rfl

/-- A decode outside the scan does the same whatever `CURSOR` and `HALT` are (R158). -/
theorem deliver_peek_setScan (off : Offset) (d : Except DecodeError Header) (s : State) (cursor : Offset)
    (halt : Bool) : deliver (.peek off) d { s with cursor := cursor, halt := halt } =
      { deliver (.peek off) d s with cursor := cursor, halt := halt } := by
  cases d <;> rfl

/-- A decode outside the scan writes only registers that the next decode of the scan writes again. -/
theorem deliver_scan_after_peek (off : Offset) (d d' : Except DecodeError Header) (s : State) :
    deliver .scan d' (deliver (.peek off) d s) = deliver .scan d' s := by
  cases d <;> cases d' <;> rfl

theorem putEnd_after_peek (off : Offset) (d : Except DecodeError Header) (s : State) (r : Reply) :
    (deliver (.peek off) d s).putEnd.answer r = s.putEnd.answer r := by
  cases d <;> rfl

/-- A running scanner's `NEXT` gives the state it would have given before (R158). -/
theorem execNext_after_peek (off : Offset) (d : Except DecodeError Header) {s : State} (h : s.halt = false) :
    exec .next (deliver (.peek off) d s) = exec .next s := by
  obtain ⟨hcursor, hhalt⟩ := deliver_peek_scan d s off
  simp only [exec, execNext, hcursor, hhalt, h, deliver_buflen, deliver_buf, deliver_scan_after_peek, putEnd_after_peek,
    Bool.false_eq_true, if_false]

/-- Settles O32: a decode outside the scan keeps what the scan reads. -/
theorem decodeAtIsOutsideTheScan : Obligations.DecodeAtIsOutsideTheScan := by
  intro s t off ht
  rw [exec_decodeAt] at ht
  cases ht
  obtain ⟨hcursor, hhalt⟩ := deliver_peek_scan (decodeOne intCodec s.buf off.toNat) s off
  exact ⟨hcursor, hhalt, fun cursor halt => congrArg _ (deliver_peek_setScan off _ s cursor halt),
    execNext_after_peek off _, fun h => execNext_halted (hhalt.trans h)⟩

end Sys2Proof.Machine

namespace Sys2Proof.Machine

/-! # The stream scanner (42_stream_scanner.md): proofs of the family's statements

First `ScanFrom` as a relation with one rule per equation of R181, free of the model's fuel; the statements on the scan
are inductions along it. Then `SEEK` and `NEXT` on the machine, and the `NEXT`s against the scan. -/

/-! ## The scan as a relation -/

/-- `ScanFrom(B, off)` yields the headers and ends with the terminal: one rule per equation of R181.
`scanFrom_eq_some_iff` ties it to the model's function. -/
inductive Scans (C : IntCodec) (B : ByteSeq) : Nat → List Header → Terminal → Prop where
  | done {off : Nat} (hend : off = B.len) : Scans C B off [] .done
  | failed {off : Nat} {e : DecodeError} (hend : off ≠ B.len) (hd : decodeOne C B off = .error e) :
      Scans C B off [] (.failed e off)
  | record {off : Nat} {h : Header} {hs : List Header} {t : Terminal} (hend : off ≠ B.len)
      (hd : decodeOne C B off = .ok h) (hrest : Scans C B h.next hs t) : Scans C B off (h :: hs) t

section Scan

variable {C : IntCodec} {B : ByteSeq} {off : Nat} {hs : List Header} {t : Terminal}

/-- A conforming codec decodes no record at the end, so the third equation needs no test for it. -/
theorem Scans.of_record (hC : C.Conforms) {h : Header} (hd : decodeOne C B off = .ok h)
    (hrest : Scans C B h.next hs t) : Scans C B off (h :: hs) t := by
  obtain ⟨hoff, hv, hin, -⟩ := decodeOne_bounds hC hd
  exact .record (by omega) hd hrest

theorem scans_of_scanFuel {fuel : Nat} (h : scanFuel C B fuel off = some (hs, t)) : Scans C B off hs t := by
  induction fuel generalizing off hs with
  | zero => cases h
  | succ fuel ih =>
    obtain ⟨hend, rfl, rfl⟩ | ⟨hend, e, hd, rfl, rfl⟩ | ⟨hend, first, rest, hd, hrest, rfl⟩ := scanFuel_some_cases h
    · exact .done hend
    · exact .failed hend hd
    · exact .record hend hd (ih hrest)

/-- One call for each byte left and one more suffice: a record ends beyond its start (R155). -/
theorem Scans.scanFuel_eq (hC : C.Conforms) (h : Scans C B off hs t) {fuel : Nat} (hfuel : B.len - off ≤ fuel) :
    scanFuel C B (fuel + 1) off = some (hs, t) := by
  induction h generalizing fuel with
  | done hend => simp [scanFuel, hend]
  | failed hend hd => simp [scanFuel, hend, hd]
  | @record off h hs t hend hd hrest ih =>
    obtain ⟨hoff, hv, hin, -⟩ := decodeOne_bounds hC hd
    obtain ⟨fuel, rfl⟩ : ∃ k, fuel = k + 1 := ⟨fuel - 1, by omega⟩
    have hleft : B.len - h.next ≤ fuel := by omega
    rw [scanFuel, if_neg hend, hd]
    simp [ih hleft]

theorem scanFrom_eq_some_iff (hC : C.Conforms) : scanFrom C B off = some (hs, t) ↔ Scans C B off hs t :=
  ⟨scans_of_scanFuel, fun h => h.scanFuel_eq hC (Nat.sub_le ..)⟩

/-- `ScanFrom` is total (R181): the bytes left behind a record are fewer. -/
theorem exists_scans (hC : C.Conforms) (B : ByteSeq) (off : Nat) : ∃ hs t, Scans C B off hs t := by
  induction hleft : B.len - off using Nat.strong_induction_on generalizing off with
  | _ left ih =>
    by_cases hend : off = B.len
    · exact ⟨_, _, .done hend⟩
    cases hd : decodeOne C B off with
    | error e => exact ⟨_, _, .failed hend hd⟩
    | ok h =>
      obtain ⟨hoff, hv, hin, -⟩ := decodeOne_bounds hC hd
      obtain ⟨hs, t, hrest⟩ := ih (B.len - h.next) (by omega) h.next rfl
      exact ⟨_, _, .record hend hd hrest⟩

/-- Each record of a scan is decoded where the one before it ends. -/
theorem Scans.decodeOne_getElem (h : Scans C B off hs t) (k : Nat) (hk : k < hs.length) :
    decodeOne C B (if k = 0 then off else (hs[k - 1]?.map Header.next).getD 0) = .ok hs[k] := by
  induction h generalizing k with
  | done | failed => exact absurd hk (Nat.not_lt_zero k)
  | record hend hd hrest ih =>
    match k with
    | 0 => exact hd
    | 1 => exact ih 0 (Nat.lt_of_succ_lt_succ hk)
    | k + 2 => exact ih (k + 1) (Nat.lt_of_succ_lt_succ hk)

/-- A scan that ends well has its last record end at the buffer's end. -/
theorem Scans.getLast_next (h : Scans C B off hs .done) {last : Header} (hlast : hs.getLast? = some last) :
    last.next = B.len := by
  generalize ht : Terminal.done = t at h
  induction h with
  | done | failed => cases hlast
  | record hend hd hrest ih =>
    cases hrest with
    | done hend' =>
      cases hlast
      exact hend'
    | failed => cases ht
    | record hend' hd' hrest' => exact ih (by simpa using hlast) ht

end Scan

/-- Settles O54: each equation is a rule of the relation. -/
theorem scanFromIsTotalAndMeetsItsEquations : Obligations.ScanFromIsTotalAndMeetsItsEquations := by
  refine fun C hC B off => ⟨fun hend => ?_, fun hend e hd => ?_, fun hend h hd => ?_⟩
  · exact (scanFrom_eq_some_iff hC).2 (.done hend)
  · exact (scanFrom_eq_some_iff hC).2 (.failed hend hd)
  · obtain ⟨hs, t, hrest⟩ := exists_scans hC B h.next
    exact ⟨hs, t, (scanFrom_eq_some_iff hC).2 hrest, (scanFrom_eq_some_iff hC).2 (.record hend hd hrest)⟩

/-! ## Skipping without understanding -/

/-- What R184 asks of a header and the pair it was encoded from. -/
def HeaderOf (B : ByteSeq) (h : Header) (r : Word × List Byte) : Prop :=
  h.type = r.1 ∧ h.length.toNat = r.2.length ∧ B.slice h.vstart h.next = r.2

/-- The bytes of an accepted record are its header and its value; an implied length is the value's (R220). -/
theorem encodeRecord_ok {C : IntCodec} {type : Word} {value bytes : List Byte}
    (h : encodeRecord C type value = .ok bytes) :
    bytes = headerBytes C type (BitVec.ofNat 64 value.length) ++ value ∧
    (type.toNat < 128 → value.length = 2 ^ (type.toNat / 8)) := by
  by_cases ht : type.toNat < 128
  · simp only [encodeRecord, impliedLength_of_lt type ht] at h
    split_ifs at h with hlen
    cases h
    simp [headerBytes, ht, not_not.1 hlen]
  · simp only [encodeRecord, impliedLength_of_ge type (Nat.le_of_not_lt ht)] at h
    cases h
    simp [headerBytes, ht]

/-- Where an encoded record stands, it is decoded (R159). -/
theorem decodeOne_of_hasAt_encodeRecord {C : IntCodec} (hC : C.Conforms) {B : ByteSeq} {off : Nat} {type : Word}
    {value bytes : List Byte} (hlt : value.length < 2 ^ 64) (h : encodeRecord C type value = .ok bytes)
    (hat : B.HasAt off bytes) :
    ∃ hd, decodeOne C B off = .ok hd ∧ HeaderOf B hd (type, value) ∧ hd.next = off + bytes.length := by
  obtain ⟨rfl, himplied⟩ := encodeRecord_ok h
  obtain ⟨hheader, hfit, hvalue⟩ := (ByteSeq.hasAt_append_iff ..).1 hat
  have hlen : (BitVec.ofNat 64 value.length).toNat = value.length := toNat_ofNat_of_lt _ hlt
  have hheaderAt := (headerAt_iff hC).2 ⟨fun ht => by rw [himplied ht], rfl, hheader⟩
  rw [decodeOne_of_headerAt hheaderAt, finishHeader_of_fits (by rwa [hlen]), hlen]
  exact ⟨_, rfl, ⟨rfl, hlen, hvalue⟩, by simp [Nat.add_assoc]⟩

theorem encodeStream_cons_ok {C : IntCodec} {type : Word} {value : List Byte} {rest : List (Word × List Byte)}
    {b : List Byte} (h : encodeStream C ((type, value) :: rest) = .ok b) :
    ∃ bytes tail, encodeRecord C type value = .ok bytes ∧ encodeStream C rest = .ok tail ∧ b = bytes ++ tail := by
  rw [encodeStream] at h
  cases hr : encodeRecord C type value with
  | error e => rw [hr] at h; cases h
  | ok bytes =>
    cases ht : encodeStream C rest with
    | error e => rw [hr, ht] at h; cases h
    | ok tail =>
      rw [hr, ht] at h
      cases h
      exact ⟨bytes, tail, rfl, rfl, rfl⟩

/-- The scan of an encoded stream that stands at the end of a buffer: one header per pair, then the end. -/
theorem exists_scans_of_encodeStream {C : IntCodec} (hC : C.Conforms) {B : ByteSeq} {off : Nat}
    {records : List (Word × List Byte)} {b : List Byte} (hlt : ∀ r ∈ records, r.2.length < 2 ^ 64)
    (h : encodeStream C records = .ok b) (hat : B.HasAt off b) (hlen : off + b.length = B.len) :
    ∃ hs, Scans C B off hs .done ∧ List.Forall₂ (HeaderOf B) hs records := by
  induction records generalizing off b with
  | nil =>
    cases h
    exact ⟨[], .done hlen, .nil⟩
  | cons r rest ih =>
    obtain ⟨type, value⟩ := r
    obtain ⟨hvalue, hrest⟩ := List.forall_mem_cons.1 hlt
    obtain ⟨bytes, tail, hr, ht, rfl⟩ := encodeStream_cons_ok h
    obtain ⟨hatr, hatt⟩ := (ByteSeq.hasAt_append_iff ..).1 hat
    obtain ⟨first, hd, hof, hnext⟩ := decodeOne_of_hasAt_encodeRecord hC hvalue hr hatr
    rw [← hnext] at hatt
    obtain ⟨hs, hscan, hall⟩ := ih hrest ht hatt (by rw [hnext, Nat.add_assoc, ← List.length_append, hlen])
    exact ⟨first :: hs, .of_record hC hd hscan, .cons hof hall⟩

/-- Settles O56: induction along the pairs gives the scan and its headers, the scan itself where each is decoded and
where the last one ends. -/
theorem scanSkipsWithoutUnderstanding : Obligations.ScanSkipsWithoutUnderstanding := by
  intro C hC records b hlt h
  have hat : (ByteSeq.ofList b).HasAt 0 b := by simpa using ByteSeq.hasAt_ofList_append [] b []
  obtain ⟨hs, hscan, hall⟩ := exists_scans_of_encodeStream hC hlt h hat (Nat.zero_add _)
  refine ⟨hs, (scanFrom_eq_some_iff hC).2 hscan, hall.length_eq, fun k hk hk' => ?_, fun last => hscan.getLast_next⟩
  obtain ⟨htype, hlength, hvalue⟩ := hall.get hk hk'
  exact ⟨htype, hlength, hvalue, hscan.decodeOne_getElem k hk⟩

/-! ## Appended bytes -/

/-- A record of a buffer is the same record of every buffer that begins with it. -/
theorem decodeOne_ok_of_longer {C : IntCodec} (hC : C.Conforms) {B B' : ByteSeq} {off : Nat} {h : Header}
    (hlen : B.len ≤ B'.len) (hbyte : ∀ i < B.len, B'.byte i = B.byte i) (hd : decodeOne C B off = .ok h) :
    decodeOne C B' off = .ok h := by
  obtain ⟨hoff, hv, hin, hnext⟩ := decodeOne_bounds hC hd
  have hstart : off + (h.vstart - off) = h.vstart := by omega
  have hsame := recordDecodesTheSameAnywhere C hC B B' off off h hd (fun i hi => hbyte _ (by omega)) (by omega)
  rw [hsame, hstart, ← hnext]

/-- A scan of a longer buffer begins with the headers of the shorter one's scan: it goes on where that one stopped. -/
theorem Scans.append_of_longer {C : IntCodec} (hC : C.Conforms) {B B' : ByteSeq} {off : Nat} {hs : List Header}
    {t : Terminal} (h : Scans C B off hs t) (hlen : B.len ≤ B'.len) (hbyte : ∀ i < B.len, B'.byte i = B.byte i) :
    ∃ more t', Scans C B' off (hs ++ more) t' := by
  induction h with
  | done | failed => exact exists_scans hC B' _
  | record hend hd hrest ih =>
    obtain ⟨more, t', hmore⟩ := ih
    exact ⟨more, t', .of_record hC (decodeOne_ok_of_longer hC hlen hbyte hd) hmore⟩

/-- Settles O57: the buffer's bytes stand unchanged before the appended ones. -/
theorem appendedBytesKeepTheGoodPrefix : Obligations.AppendedBytesKeepTheGoodPrefix := by
  intro C hC b tail hs t h
  have hbyte : ∀ i < b.length, (ByteSeq.ofList (b ++ tail)).byte i = (ByteSeq.ofList b).byte i := fun i hi => by
    rw [ByteSeq.ofList_byte _ _ (by simp; omega), ByteSeq.ofList_byte _ _ hi, List.getElem_append_left hi]
  obtain ⟨more, t', hmore⟩ := ((scanFrom_eq_some_iff hC).1 h).append_of_longer hC (by simp) hbyte
  exact ⟨more, t', (scanFrom_eq_some_iff hC).2 hmore⟩

/-! ## `SEEK` and `NEXT` on the machine -/

/-- R173. -/
theorem exec_seek (off : Offset) (s : State) :
    exec (.seek off) s = .next ((s.setCursor off).clearScan.answer (.response .ok)) := rfl

/-- Settles O26: the fields that `SEEK`'s operations write. -/
theorem seekMovesTheCursorAndLeavesTheHalt : Obligations.SeekMovesTheCursorAndLeavesTheHalt := exec_seek

/-- Settles O27. -/
theorem nextWhileHaltedWritesNothing : Obligations.NextWhileHaltedWritesNothing := fun _ => execNext_halted

section Running

variable {s : State} (hhalt : s.halt = false)
include hhalt

/-- R178. -/
theorem execNext_atEnd (hend : s.cursor = s.buflen) :
    exec .next s = .next (s.putEnd.answer (.response .atEnd)) := by
  simp [exec, execNext, hhalt, hend]

/-- A further `NEXT` at the end leaves the state the first one left (R178). -/
theorem execNext_again_atEnd (hend : s.cursor = s.buflen) :
    exec .next (s.putEnd.answer (.response .atEnd)) = .next (s.putEnd.answer (.response .atEnd)) :=
  execNext_atEnd (s := s.putEnd.answer (.response .atEnd)) hhalt hend

/-- R175. -/
theorem execNext_of_ok (hend : s.cursor ≠ s.buflen) {h : Header}
    (hd : decodeOne intCodec s.buf s.cursor.toNat = .ok h) : exec .next s = .next (yielded .scan h.toResult s) := by
  rw [execNext_running hhalt hend, hd, deliver_ok]

/-- R247. -/
theorem execNext_of_error (hend : s.cursor ≠ s.buflen) {e : DecodeError}
    (hd : decodeOne intCodec s.buf s.cursor.toNat = .error e) : exec .next s = .next (failed .scan e s) := by
  rw [execNext_running hhalt hend, hd, deliver_error]

end Running

/-- Settles O28: the second `NEXT` finds the scanner where the first did. -/
theorem nextAtTheEndAnswersEnd : Obligations.NextAtTheEndAnswersEnd :=
  fun _ hhalt hend => ⟨_, execNext_atEnd hhalt hend, rfl, execNext_again_atEnd hhalt hend⟩

/-- Settles O29: the record lies inside the buffer, so `CURSOR` holds its end exactly. -/
theorem nextYieldsTheRecordOrHalts : Obligations.NextYieldsTheRecordOrHalts := by
  refine fun s hhalt hend => ⟨fun h hd => ?_, fun e hd => execNext_of_error hhalt hend hd⟩
  obtain ⟨hoff, hv, hin, -⟩ := decodeOne_bounds intCodec_conforms hd
  have hcursor : (yielded .scan h.toResult s).cursor.toNat = h.next := (toResult_offsets hd).2
  refine ⟨_, execNext_of_ok hhalt hend hd, rfl, hcursor, ?_, ?_⟩
  · rw [hcursor]
    omega
  · rwa [hcursor]

/-- Settles O30: no type field stands beyond the end. -/
theorem nextBeyondTheEndHalts : Obligations.NextBeyondTheEndHalts := by
  intro s hhalt hbeyond
  have hd := noRecordAtOrBeyondTheEnd intCodec intCodec_conforms s.buf s.cursor.toNat (Nat.le_of_lt hbeyond)
  exact execNext_of_error hhalt (BitVec.ne_of_lt hbeyond).symm hd

/-- Settles O52: `SEEK` leaves the buffer, and the invariant says that the record at `CURSOR` fails. -/
theorem haltedRecordFailsOnEveryVisit : Obligations.HaltedRecordFailsOnEveryVisit := by
  intro s hs hhalt
  obtain ⟨hend, e, hd⟩ := hs.haltMeansFailing hhalt
  have hnext := execNext_of_error (s := (s.setCursor s.cursor).clearScan.answer (.response .ok)) rfl hend hd
  exact ⟨_, _, exec_seek s.cursor s, hnext, rfl, rfl, rfl, e, hd, rfl, rfl⟩

/-! ## The `NEXT`s yield the scan -/

theorem State.cursor_toNat_ne_iff {s : State} : s.cursor.toNat ≠ s.buf.len ↔ s.cursor ≠ s.buflen :=
  not_congr BitVec.toNat_inj

/-- A `NEXT` on a scan that begins with a record (R174, R181). -/
theorem execNext_record_of_scans {s : State} {h : Header} {hs : List Header} {t : Terminal} (hhalt : s.halt = false)
    (hscan : Scans intCodec s.buf s.cursor.toNat (h :: hs) t) :
    exec .next s = .next (yielded .scan h.toResult s) ∧
    Scans intCodec s.buf (yielded .scan h.toResult s).cursor.toNat hs t := by
  cases hscan with
  | record hend hd hrest =>
    refine ⟨execNext_of_ok hhalt (State.cursor_toNat_ne_iff.1 hend) hd, ?_⟩
    rwa [yielded_cursor_scan, (toResult_offsets hd).2]

/-- The scan that is empty and ends well is the one at the end. -/
theorem cursor_eq_buflen_of_scans {s : State} (hscan : Scans intCodec s.buf s.cursor.toNat [] .done) :
    s.cursor = s.buflen := by
  cases hscan with
  | done hend => exact BitVec.eq_of_toNat_eq hend

/-- A `NEXT` on a scan that fails at once (R247, R248). -/
theorem execNext_failed_of_scans {s : State} {e : DecodeError} {off : Nat} (hhalt : s.halt = false)
    (hscan : Scans intCodec s.buf s.cursor.toNat [] (.failed e off)) :
    exec .next s = .next (failed .scan e s) ∧ s.cursor.toNat = off := by
  cases hscan with
  | failed hend hd => exact ⟨execNext_of_error hhalt (State.cursor_toNat_ne_iff.1 hend) hd, rfl⟩

/-- Settles O55: the rule by which the scan begins is the branch that `NEXT` takes. -/
theorem nextsYieldTheScan : Obligations.NextsYieldTheScan := by
  have hiff {B off hs t} := scanFrom_eq_some_iff intCodec_conforms (B := B) (off := off) (hs := hs) (t := t)
  refine fun s hhalt => ⟨fun h hs t hscan => ?_, fun hscan => ?_, fun e off hscan => ?_⟩
  · obtain ⟨hnext, hrest⟩ := execNext_record_of_scans hhalt (hiff.1 hscan)
    exact ⟨_, hnext, rfl, hhalt, rfl, hiff.2 hrest⟩
  · have hend := cursor_eq_buflen_of_scans (hiff.1 hscan)
    exact ⟨_, execNext_atEnd hhalt hend, rfl, execNext_again_atEnd hhalt hend⟩
  · obtain ⟨hnext, hoff⟩ := execNext_failed_of_scans hhalt (hiff.1 hscan)
    exact ⟨_, hnext, rfl, hoff, rfl, _, execNext_halted rfl, rfl⟩

end Sys2Proof.Machine

namespace Sys2Proof.Machine

/-! # The host commands (43_host_commands.md): proofs of the family's statements

First `BIND`, on both sides of the width; then what a step does with the host's next action, and that it completes. -/

/-! ## `BIND` -/

/-- R201. -/
theorem exec_bind {b : List Byte} (h : b.length < 2 ^ 64) (s : State) :
    exec (.bind b) s = .next (((s.bindBuffer b).setCursor 0).clearScan.answer (.response .ok)) :=
  if_pos h

/-- The buffer bound reads as the bytes of `b` (R61, R201). -/
theorem State.bindBuffer_byte (s : State) {b : List Byte} {a : Nat} (h : a < b.length) :
    (s.bindBuffer b).buf.byte a = b[a] := by
  have hread := Memory.read_ofBytesAt 0 b a
  rwa [Nat.zero_add, List.getD_eq_getElem _ _ h] at hread

/-- `STATUS` with no kind, no error and no halt is the zero word (R26, R39). -/
theorem State.statusWord_of_cleared {s : State} (hkind : s.kind = .none) (herr : s.err = none)
    (hhalt : s.halt = false) : s.statusWord = 0 := by
  have hexpl : s.expl = false := State.expl_of_not_record (by simp [hkind])
  simp only [State.statusWord, State.errCode, hexpl, hhalt, herr, hkind]
  rfl

/-- Settles O24: the operations of `BIND` field by field, the bytes by reading the memory they are written to. -/
theorem bindBindsTheBuffer : Obligations.BindBindsTheBuffer := by
  intro b s h
  have hlen : (s.bindBuffer b).buflen.toNat = b.length := toNat_ofNat_of_lt _ h
  exact ⟨_, exec_bind h s, fun _ => s.bindBuffer_byte, hlen, rfl, rfl, rfl, rfl, rfl,
    State.statusWord_of_cleared rfl rfl rfl, rfl, rfl, rfl, Memory.wf_ofBytesAt 0 b⟩

/-- Settles O25: the other branch of `BIND`'s test of the length. -/
theorem bindOutsideTheWidthIsRefused : Obligations.BindOutsideTheWidthIsRefused :=
  fun _ _ h => if_neg (Nat.not_lt.2 h)

/-! ## The host's next action -/

/-- Settles O41: there is no action to take. -/
theorem idleBlockDoesNothing : Obligations.IdleBlockDoesNothing := by
  intro s hin
  simp [step, State.takeEvent, hin]

theorem runCommand_of_ok {c : Command} {i : Instr} (h : decode (.command c) = .ok i) (s : State) :
    runCommand c s = exec i s := by
  simp only [runCommand, h]

/-- Settles O42: the action taken is the command, which runs as what it decodes to. -/
theorem stepRunsTheDecodedCommand : Obligations.StepRunsTheDecodedCommand :=
  fun s _ rest _ hd => runCommand_of_ok hd { s with inbox := rest }

/-! ## Completion -/

/-- A record always delivers its decode (R134 to R151). -/
theorem record_completes {i : Instr} {site : Site} {type : Word} (h : i.wireType = some (site, type)) (s : State) :
    ∃ t, exec i s = .next t := by
  obtain ⟨_, hx⟩ := exec_record h s
  exact ⟨_, hx⟩

/-- Every instruction that the spec can express completes (R207, R252). -/
theorem exec_completes {i : Instr} (hwf : i.WellFormed) (s : State) : ∃ t, exec i s = .next t := by
  cases i with
  | bind b => exact ⟨_, exec_bind (of_decide_eq_true hwf) s⟩
  | seek off => exact ⟨_, exec_seek off s⟩
  | next => rcases execNext_cases s with ⟨-, hx⟩ | ⟨-, -, hx⟩ | ⟨-, -, hx⟩ <;> exact ⟨_, hx⟩
  | decodeAt off => exact ⟨_, exec_decodeAt off s⟩
  | encodeRecord type value => exact ⟨_, if_pos (of_decide_eq_true hwf)⟩
  | _ => exact record_completes rfl s

/-- A command whose data fit the width decodes to an instruction that the spec can express (R92, R206). -/
theorem decode_command_wellFormed {c : Command} {i : Instr} (hdata : c.data.length < 2 ^ 64)
    (hd : decode (.command c) = .ok i) : i.WellFormed := by
  rcases decodeCommand_ok hd with ⟨-, rfl⟩ | ⟨-, rfl⟩ | ⟨-, rfl⟩ | ⟨-, rfl⟩
  · exact decide_eq_true hdata
  all_goals rfl

/-- Settles O43: only a decoded command runs an instruction, and what decodes is expressible. -/
theorem everyStepCompletes : Obligations.EveryStepCompletes := by
  intro s hdata
  rcases step_cases s with ⟨-, hs⟩ | ⟨_, -, hs⟩ | ⟨_, _, -, hs⟩ | ⟨c, rest, i, hin, hd, hs⟩ |
      ⟨_, _, _, -, -, hs⟩
  · exact ⟨_, hs⟩
  · exact ⟨_, hs⟩
  · exact ⟨_, hs⟩
  · rw [hs]
    exact exec_completes (decode_command_wellFormed (hdata c (by simp [hin])) hd) { s with inbox := rest }
  · exact ⟨_, hs⟩

end Sys2Proof.Machine

namespace Sys2Proof.Machine

/-! # The reference encoder (44_encode_reference.md): proofs of the family's statements

First the encoder's two answers: header and value for an accepted pair, `LengthMismatch` for any other. Then encoding and
decoding as inverses, and last the instruction. -/

/-! ## The encoder's answers -/

section Answers

variable {C : IntCodec} {type : Word} {value : List Byte}

theorem headerBytes_of_lt {length : Word} (h : type.toNat < 128) : headerBytes C type length = C.enc type := if_pos h

theorem headerBytes_of_ge {length : Word} (h : 128 ≤ type.toNat) :
    headerBytes C type length = C.enc type ++ C.enc length := if_neg (Nat.not_lt.2 h)

/-- An accepted pair, one whose implied length is the value's, is encoded as header and value (R220). -/
theorem encodeRecord_of_accepted (h : type.toNat < 128 → value.length = 2 ^ (type.toNat / 8)) :
    encodeRecord C type value = .ok (headerBytes C type (BitVec.ofNat 64 value.length) ++ value) := by
  rcases lt_or_ge type.toNat 128 with ht | ht
  · simp [encodeRecord, impliedLength_of_lt type ht, headerBytes_of_lt ht, h ht]
  · simp [encodeRecord, impliedLength_of_ge type ht, headerBytes_of_ge ht]

/-- R222. -/
theorem encodeRecord_of_mismatch (ht : type.toNat < 128) (hlen : value.length ≠ 2 ^ (type.toNat / 8)) :
    encodeRecord C type value = .error .lengthMismatch := by
  simp [encodeRecord, impliedLength_of_lt type ht, hlen]

end Answers

/-- No decode error has the encoder's code 4 (R28, R240). -/
theorem DecodeError.code_ne_lengthMismatch (e : DecodeError) : e.code ≠ EncodeError.code .lengthMismatch := by
  obtain (_ | _) | _ := e <;> decide

theorem State.errCode_ne_lengthMismatch (s : State) : s.errCode ≠ EncodeError.code .lengthMismatch := by
  unfold State.errCode
  split
  next => decide
  next e _ => exact e.code_ne_lengthMismatch

/-- Settles O16: a pair that is no mismatch is accepted, so the error is raised for no other; and `STATUS.ERR` holds codes
of decode errors only. -/
theorem lengthMismatchExactlyForAWrongImpliedLength : Obligations.LengthMismatchExactlyForAWrongImpliedLength := by
  refine fun C type value => ⟨⟨fun herr => ?_, fun ⟨ht, hlen⟩ => encodeRecord_of_mismatch ht hlen⟩,
    State.errCode_ne_lengthMismatch⟩
  by_contra hno
  rw [encodeRecord_of_accepted fun ht => by_contra fun hlen => hno ⟨ht, hlen⟩] at herr
  cases herr

/-- Settles O17: the encoding is the header and the value, in both formats. -/
theorem encodedRecordSize : Obligations.EncodedRecordSize := by
  intro C type value bytes h
  obtain ⟨rfl, -⟩ := encodeRecord_ok h
  exact ⟨fun ht => by rw [headerBytes_of_lt ht, List.length_append],
    fun ht => by rw [headerBytes_of_ge ht, List.length_append, List.length_append]⟩

/-! ## Round trips -/

/-- Settles O18: the encoding stands between the bytes before and after it. -/
theorem encodedRecordDecodesBack : Obligations.EncodedRecordDecodesBack := by
  intro C hC type value bytes p q hlt h
  obtain ⟨hd, hdec, ⟨htype, hlength, hvalue⟩, hnext⟩ :=
    decodeOne_of_hasAt_encodeRecord hC hlt h (ByteSeq.hasAt_ofList_append p bytes q)
  exact ⟨hd, hdec, htype, hlength, hvalue, hnext⟩

/-- A list stands at the start of its own bytes, and is the only one of its length there. -/
theorem hasAt_ofList_zero_iff {b l : List Byte} (hlen : l.length = b.length) :
    (ByteSeq.ofList b).HasAt 0 l ↔ l = b := by
  have hb : (ByteSeq.ofList b).HasAt 0 b := by simpa using ByteSeq.hasAt_ofList_append [] b []
  exact ⟨fun hl => (hl.isPrefix hb hlen.le).eq_of_length hlen, fun h => h ▸ hb⟩

/-- Where a record decodes, the encoding of its type and value stands (R114, R220). -/
theorem exists_encodeRecord_hasAt_of_decodeOne {C : IntCodec} (hC : C.Conforms) {B : ByteSeq} {off : Nat} {h : Header}
    (hd : decodeOne C B off = .ok h) :
    ∃ bytes, encodeRecord C h.type (B.slice h.vstart h.next) = .ok bytes ∧ B.HasAt off bytes ∧
      off + bytes.length = h.next := by
  obtain ⟨-, hv, hin, hnext⟩ := decodeOne_bounds hC hd
  obtain ⟨himplied, hend, hheader⟩ := (headerAt_iff hC).1 (decodeOne_ok hd).1
  have hlen : (B.slice h.vstart h.next).length = h.length.toNat := by rw [ByteSeq.slice_length]; omega
  have hvend : h.vstart + (B.slice h.vstart h.next).length = h.next := by rw [hlen, hnext]
  have hvalue : B.HasAt h.vstart (B.slice h.vstart h.next) := ⟨hvend.trans_le hin, by rw [hvend]⟩
  have haccepted (ht : h.type.toNat < 128) : (B.slice h.vstart h.next).length = 2 ^ (h.type.toNat / 8) := by
    rw [hlen, himplied ht, impliedLength_toNat h.type ht]
  refine ⟨_, encodeRecord_of_accepted haccepted, ?_⟩
  rw [hlen, BitVec.ofNat_toNat, BitVec.setWidth_eq, List.length_append, ← Nat.add_assoc, ← hend]
  exact ⟨(ByteSeq.hasAt_append_iff ..).2 ⟨hheader, hend ▸ hvalue⟩, hvend⟩

/-- Settles O19: the encoding that stands there has the string's length, so it is the string; and a pair with that encoding
is what the string decodes to. -/
theorem acceptedBytesEncodeExactlyOneRecord : Obligations.AcceptedBytesEncodeExactlyOneRecord := by
  intro C hC b h hd hend
  constructor
  · obtain ⟨bytes, henc, hat, hlen⟩ := exists_encodeRecord_hasAt_of_decodeOne hC hd
    rwa [(hasAt_ofList_zero_iff (by omega)).1 hat] at henc
  · intro type value hlt henc
    obtain ⟨h', hd', ⟨htype, -, hvalue⟩, -⟩ :=
      decodeOne_of_hasAt_encodeRecord hC hlt henc ((hasAt_ofList_zero_iff rfl).2 rfl)
    obtain rfl : h = h' := Except.ok.inj (hd.symm.trans hd')
    exact ⟨htype.symm, hvalue.symm⟩

/-! ## The instruction -/

section Instruction

variable {type : Word} {value : List Byte}

/-- `ENCODE_RECORD` on a value it can be given answers what the encoder answers (R220). -/
theorem exec_encodeRecord_of_ok (hlt : value.length < 2 ^ 64) {bytes : List Byte}
    (h : encodeRecord intCodec type value = .ok bytes) (s : State) :
    exec (.encodeRecord type value) s = .next (s.answer (.encoded bytes)) := by
  rw [exec, execEncodeRecord, if_pos hlt, h]

theorem exec_encodeRecord_of_error (hlt : value.length < 2 ^ 64) {e : EncodeError}
    (h : encodeRecord intCodec type value = .error e) (s : State) :
    exec (.encodeRecord type value) s = .next (s.answer (.encodeError e)) := by
  rw [exec, execEncodeRecord, if_pos hlt, h]

end Instruction

/-- Settles O33: the encoder's answer in each case, handed over by the instruction; a longer value is refused. -/
theorem encodeRecordAnswersAndTouchesNoRegister : Obligations.EncodeRecordAnswersAndTouchesNoRegister := by
  refine fun type value s => ⟨fun hlt ht hlen => ?implied, fun hlt ht hlen => ?mismatch, fun hlt ht => ?explicit,
    fun hge => if_neg (Nat.not_lt.2 hge)⟩
  case implied =>
    rw [exec_encodeRecord_of_ok hlt (encodeRecord_of_accepted fun _ => hlen), headerBytes_of_lt ht, State.answer]
  case mismatch =>
    rw [exec_encodeRecord_of_error hlt (encodeRecord_of_mismatch ht hlen), State.answer]
  case explicit =>
    have haccepted (h : type.toNat < 128) : value.length = 2 ^ (type.toNat / 8) := absurd h (Nat.not_lt.2 ht)
    rw [exec_encodeRecord_of_ok hlt (encodeRecord_of_accepted haccepted), headerBytes_of_ge ht, State.answer]

end Sys2Proof.Machine

namespace Sys2Proof.Machine

/-! # Exceptions (60_exceptions.md): proofs of the family's statements

First which cause makes `DecodeOne` give which error, and the code that `DECODE_AT` leaves for it; then the instances run
under a schedule. -/

/-! ## The causes of the errors -/

section Causes

variable {C : IntCodec} {B : ByteSeq} {off : Nat}

/-- Every failure (R241 to R243): no type scalar, no length scalar, or a header whose value does not fit. -/
theorem decodeOne_error (hC : C.Conforms) {e : DecodeError} (hd : decodeOne C B off = .error e) :
    (C.dec B off = none ∧ e = .malformedInteger .type) ∨
    ((∃ type n1, C.dec B off = some (type, n1) ∧ 128 ≤ type.toNat ∧ C.dec B (off + n1) = none) ∧
      e = .malformedInteger .length) ∨
    ((∃ type length headerEnd, HeaderAt C B off type length headerEnd ∧ B.len < headerEnd + length.toNat) ∧
      e = .truncatedValue) := by
  rcases decodeOne_cases C B off with ⟨hnone, h⟩ | ⟨type, n1, htype, hexplicit, hnone, h⟩ |
      ⟨type, length, headerEnd, hat, h⟩ <;> rw [h] at hd
  · cases hd
    exact .inl ⟨hnone, rfl⟩
  · cases hd
    exact .inr (.inl ⟨⟨type, n1, htype, hexplicit, hnone⟩, rfl⟩)
  · obtain ⟨-, rfl⟩ := finishHeader_error_iff.1 hd
    obtain ⟨-, hend, -⟩ := hat.bounds hC
    exact .inr (.inr ⟨⟨type, length, headerEnd, hat, (finishHeader_truncated_iff hend).1 hd⟩, rfl⟩)

/-- R241. -/
theorem decodeOne_malformedType_iff (hC : C.Conforms) :
    decodeOne C B off = .error (.malformedInteger .type) ↔ C.dec B off = none := by
  refine ⟨fun hd => ?_, decodeOne_of_dec_none⟩
  obtain ⟨hnone, -⟩ | ⟨-, ⟨⟩⟩ | ⟨-, ⟨⟩⟩ := decodeOne_error hC hd
  exact hnone

/-- R242. -/
theorem decodeOne_malformedLength_iff (hC : C.Conforms) :
    decodeOne C B off = .error (.malformedInteger .length) ↔
      ∃ type n1, C.dec B off = some (type, n1) ∧ 128 ≤ type.toNat ∧ C.dec B (off + n1) = none := by
  refine ⟨fun hd => ?_, fun ⟨type, n1, htype, hexplicit, hnone⟩ => ?_⟩
  · obtain ⟨-, ⟨⟩⟩ | ⟨hcause, -⟩ | ⟨-, ⟨⟩⟩ := decodeOne_error hC hd
    exact hcause
  · simp [decodeOne, htype, impliedLength_of_ge type hexplicit, hnone]

/-- R243, over natural numbers. -/
theorem decodeOne_truncatedValue_iff (hC : C.Conforms) :
    decodeOne C B off = .error .truncatedValue ↔
      ∃ type length headerEnd, HeaderAt C B off type length headerEnd ∧ B.len < headerEnd + length.toNat := by
  refine ⟨fun hd => ?_, fun ⟨type, length, headerEnd, hat, hshort⟩ => ?_⟩
  · obtain ⟨-, ⟨⟩⟩ | ⟨-, ⟨⟩⟩ | ⟨hcause, -⟩ := decodeOne_error hC hd
    exact hcause
  · obtain ⟨-, hend, -⟩ := hat.bounds hC
    rw [decodeOne_of_headerAt hat]
    exact (finishHeader_truncated_iff hend).2 hshort

/-- A header's length as a natural number: the power of two that its type implies, or the length scalar (R131, R150). -/
theorem exists_headerAt_toNat_iff {type : Word} {headerEnd L : Nat} :
    (∃ length, HeaderAt C B off type length headerEnd ∧ length.toNat = L) ↔
      ∃ n1, C.dec B off = some (type, n1) ∧
        ((type.toNat < 128 ∧ headerEnd = off + n1 ∧ L = 2 ^ (type.toNat / 8)) ∨
         (128 ≤ type.toNat ∧ ∃ l n2, C.dec B (off + n1) = some (l, n2) ∧
            headerEnd = off + n1 + n2 ∧ L = l.toNat)) := by
  constructor
  · rintro ⟨length, ⟨n1, htype, ⟨himplied, rfl, hend⟩ | ⟨hexplicit, n2, hlength, hend⟩⟩, rfl⟩
    · exact ⟨n1, htype, .inl ⟨himplied, hend, impliedLength_toNat type himplied⟩⟩
    · exact ⟨n1, htype, .inr ⟨hexplicit, length, n2, hlength, hend, rfl⟩⟩
  · rintro ⟨n1, htype, ⟨himplied, hend, rfl⟩ | ⟨hexplicit, l, n2, hlength, hend, rfl⟩⟩
    · exact ⟨_, ⟨n1, htype, .inl ⟨himplied, rfl, hend⟩⟩, impliedLength_toNat type himplied⟩
    · exact ⟨l, ⟨n1, htype, .inr ⟨hexplicit, n2, hlength, hend⟩⟩, rfl⟩

end Causes

/-! ## The code a decode leaves in `STATUS.ERR` -/

/-- The codes of R28 tell the errors apart. -/
theorem DecodeError.code_inj {e e' : DecodeError} : e.code = e'.code ↔ e = e' := by
  obtain (_ | _) | _ := e <;> obtain (_ | _) | _ := e' <;> decide

/-- Code 0 is no error's (R28). -/
theorem DecodeError.code_ne_zero (e : DecodeError) : e.code ≠ 0 := by
  obtain (_ | _) | _ := e <;> decide

section Codes

variable (site : Site) (s : State)

@[simp] theorem yielded_errCode (r : Result) : (yielded site r s).errCode = 0 := rfl
@[simp] theorem failed_errCode (e : DecodeError) : (failed site e s).errCode = e.code := rfl

/-- A decode leaves an error's code exactly when it gave that error (R246). -/
theorem deliver_errCode_eq_code_iff (d : Except DecodeError Header) (e : DecodeError) :
    (deliver site d s).errCode = e.code ↔ d = .error e := by
  cases d with
  | ok h =>
    rw [deliver_ok, yielded_errCode]
    exact iff_of_false e.code_ne_zero.symm nofun
  | error e' => simp [DecodeError.code_inj]

/-- A decode leaves code 0 exactly when it yielded a record (R28, R246). -/
theorem deliver_errCode_eq_zero_iff (d : Except DecodeError Header) :
    (deliver site d s).errCode = 0 ↔ (deliver site d s).kind = .record := by
  cases d with
  | ok h => simp
  | error e =>
    rw [deliver_error, failed_errCode]
    exact iff_of_false e.code_ne_zero nofun

end Codes

/-- Settles O37: a code names the error that `DecodeOne` gave, and each error has one cause. -/
theorem errorCausesAndCodes : Obligations.ErrorCausesAndCodes := by
  intro s t off ht
  rw [exec_decodeAt] at ht
  cases ht
  have hcode := deliver_errCode_eq_code_iff (.peek off) s (decodeOne intCodec s.buf off.toNat)
  refine ⟨(hcode (.malformedInteger .type)).trans (decodeOne_malformedType_iff intCodec_conforms),
    (hcode (.malformedInteger .length)).trans (decodeOne_malformedLength_iff intCodec_conforms),
    (hcode .truncatedValue).trans ((decodeOne_truncatedValue_iff intCodec_conforms).trans ?_),
    deliver_errCode_eq_zero_iff ..⟩
  constructor
  · rintro ⟨type, length, headerEnd, hat, hshort⟩
    obtain ⟨n1, htype, hlength⟩ := exists_headerAt_toNat_iff.1 ⟨length, hat, rfl⟩
    exact ⟨type, n1, headerEnd, length.toNat, htype, hlength, hshort⟩
  · rintro ⟨type, n1, headerEnd, L, htype, hlength, hshort⟩
    obtain ⟨length, hat, rfl⟩ := exists_headerAt_toNat_iff.2 ⟨n1, htype, hlength⟩
    exact ⟨type, length, headerEnd, hat, hshort⟩

/-! ## Several instances -/

section Instance

variable {k : Nat} {ss ss' : List State} (h : stepInstance k ss = .next ss')
include h

/-- All that a step of the `k`-th of the instances can do. -/
theorem stepInstance_next :
    (ss[k]? = none ∧ ss' = ss) ∨ ∃ s t, ss[k]? = some s ∧ step s = .next t ∧ ss' = ss.set k t := by
  unfold stepInstance at h
  split at h
  next hnone =>
    cases h
    exact .inl ⟨hnone, rfl⟩
  next s hs =>
    split at h <;> cases h
    next t ht => exact .inr ⟨s, t, hs, ht, rfl⟩

theorem stepInstance_length : ss'.length = ss.length := by
  obtain ⟨-, rfl⟩ | ⟨s, t, -, -, rfl⟩ := stepInstance_next h
  · rfl
  · exact List.length_set

/-- The `k`-th takes a step of its own. -/
theorem stepInstance_getElem?_self {s : State} (hs : ss[k]? = some s) :
    ∃ t, step s = .next t ∧ ss'[k]? = some t := by
  obtain ⟨hnone, -⟩ | ⟨s', t, hs', ht, rfl⟩ := stepInstance_next h
  · simp [hnone] at hs
  · obtain rfl : s' = s := Option.some.inj (hs'.symm.trans hs)
    exact ⟨t, ht, List.getElem?_set_self (List.getElem?_eq_some_iff.1 hs).1⟩

/-- All the others stay as they are (R259). -/
theorem stepInstance_getElem?_of_ne {j : Nat} (hj : j ≠ k) : ss'[j]? = ss[j]? := by
  obtain ⟨-, rfl⟩ | ⟨s, t, -, -, rfl⟩ := stepInstance_next h
  · rfl
  · exact List.getElem?_set_ne hj.symm

end Instance

theorem stepTimes_succ_of_next {s t : State} (h : step s = .next t) (n : Nat) :
    stepTimes (n + 1) s = stepTimes n t := by
  simp [stepTimes, h]

/-- A completed schedule completed its first step and the rest of it. -/
theorem runSchedule_cons_next {k : Nat} {ks : List Nat} {ss ss' : List State}
    (h : runSchedule (k :: ks) ss = .next ss') :
    ∃ mid, stepInstance k ss = .next mid ∧ runSchedule ks mid = .next ss' := by
  unfold runSchedule at h
  split at h
  next mid hmid => exact ⟨mid, hmid, h⟩
  all_goals cases h

/-- Settles O53, by induction on the schedule: its first entry steps the state it names and leaves the others alone. -/
theorem instancesAreIndependent : Obligations.InstancesAreIndependent := by
  intro schedule
  induction schedule with
  | nil =>
    rintro ss _ ⟨⟩
    exact ⟨rfl, fun _ s hs => ⟨s, hs, rfl⟩⟩
  | cons k ks ih =>
    intro ss ss' h
    obtain ⟨mid, hfirst, hrest⟩ := runSchedule_cons_next h
    obtain ⟨hlen, halone⟩ := ih mid ss' hrest
    refine ⟨hlen.trans (stepInstance_length hfirst), fun j s hs => ?_⟩
    rcases eq_or_ne j k with rfl | hj
    · obtain ⟨t, ht, hmid⟩ := stepInstance_getElem?_self hfirst hs
      rw [List.count_cons_self, stepTimes_succ_of_next ht]
      exact halone j t hmid
    · rw [List.count_cons_of_ne hj.symm]
      exact halone j s ((stepInstance_getElem?_of_ne hfirst hj).trans hs)

end Sys2Proof.Machine

namespace Sys2Proof.Machine

/-! # Reset (70_reset_and_hazards.md): proofs of the family's statements

Reset clears `STATUS` and binds the empty buffer, which holds no record at any offset; the commands' own rules do the rest. -/

/-- A step takes the reset event (R280). -/
theorem step_of_reset (s : State) (rest : List HostEvent) :
    step { s with inbox := .reset :: rest } = .next { s with inbox := rest }.afterReset := rfl

@[simp] theorem State.afterReset_statusWord (s : State) : s.afterReset.statusWord = 0 :=
  State.statusWord_of_cleared s.afterReset_kind s.afterReset_err s.afterReset_halt

/-- Whatever bytes memory still holds, the empty buffer has no record at any offset (R154, R281). -/
theorem State.decodeOne_afterReset (s : State) (off : Nat) :
    decodeOne intCodec s.afterReset.buf off = .error (.malformedInteger .type) :=
  noRecordAtOrBeyondTheEnd intCodec intCodec_conforms s.afterReset.buf off (Nat.zero_le off)

/-- Settles O39: the registers that `afterReset` writes, and those it leaves. -/
theorem resetClearsTheStateAndKeepsTheMemory : Obligations.ResetClearsTheStateAndKeepsTheMemory :=
  fun s rest => ⟨_, step_of_reset s rest, by simp⟩

/-- Settles O40: `CURSOR` stands at the end of a buffer without records, and `STATUS` is zero. -/
theorem behaviourRightAfterReset : Obligations.BehaviourRightAfterReset := by
  refine fun s => ⟨⟨_, execNext_atEnd s.afterReset_halt rfl, rfl⟩, fun off => ⟨_, exec_decodeAt off _, ?_⟩,
    fun off => ⟨_, exec_seek off _, rfl⟩, ?_⟩
  · rw [s.decodeOne_afterReset, deliver_error]
    rfl
  · obtain ⟨v, _, hstep, -, -, hstatus, -⟩ := registerReadsGiveTheRegisters s.afterReset [] 2
    have hv : v = .value 0 := by simpa using hstatus rfl
    exact ⟨_, hstep, congrArg some hv⟩

end Sys2Proof.Machine
